-- ==== Sys2Proof/Word.lean ====
section
/-! DEFINITION. The widths of the machine: an opcode nibble, a byte, a 12-bit address field, a 16-bit word
(10_state.md R20, 30_encoding.md R84). -/

namespace Sys2Proof

/-- A 4-bit opcode field: a register number `X` or `Y`, a row count `N`, a key number (R84, R30). -/
abbrev Nibble := BitVec 4

/-- A general register, a timer, a byte of memory (R21, R28, R50). -/
abbrev Byte := BitVec 8

/-- The 12-bit address field `NNN` of an instruction word (R84). -/
abbrev Addr := BitVec 12

/-- An instruction word, and the registers `I`, `PC`, `SP` (R80, R24, R25, R26). -/
abbrev Word := BitVec 16

end Sys2Proof
end

