-- ==== Sys2Proof/Machine/Flags.lean ====
section
/-! DEFINITION. The flag values of R143: carry, no-borrow, and the bit a shift moves out. -/

namespace Sys2Proof.Machine

/-- A flag as the byte written to `VF`. -/
def flagByte (b : Bool) : Byte := if b then 1 else 0

/-- `8XY4`: 1 iff the sum exceeds 255 (R137). -/
def carryFlag (a b : Byte) : Byte := flagByte (decide (255 < a.toNat + b.toNat))

/-- `8XY5`, `8XY7`: 1 iff taking `b` from `a` borrows nothing, that is `a >= b` (R138, R140). -/
def noBorrowFlag (a b : Byte) : Byte := flagByte (decide (b.toNat ≤ a.toNat))

/-- `8XY6`: bit 0 before the shift (R139). -/
def lsbFlag (a : Byte) : Byte := a &&& 1

/-- `8XYE`: bit 7 before the shift (R141). -/
def msbFlag (a : Byte) : Byte := (a &&& 0x80) >>> 7

end Sys2Proof.Machine
end

