-- ==== Sys2Proof/Syntax.lean ====
section
/-! DEFINITION. The 34 instructions of 30_encoding.md R93, one constructor a row of spec/opcode_table.json, in its
order, with the typed fields of R88. -/

namespace Sys2Proof

/-- A decoded instruction: a tagged value with typed fields (R88). -/
inductive Instr where
  /-- `00E0` clear the framebuffer (R180). -/
  | cls
  /-- `00EE` return (R112). -/
  | ret
  /-- `1NNN` jump (R113). -/
  | jp (nnn : Addr)
  /-- `2NNN` call (R114). -/
  | call (nnn : Addr)
  /-- `3XNN` skip if `VX = NN` (R115). -/
  | seVxNn (x : Nibble) (nn : Byte)
  /-- `4XNN` skip if `VX ≠ NN` (R116). -/
  | sneVxNn (x : Nibble) (nn : Byte)
  /-- `5XY0` skip if `VX = VY` (R117). -/
  | seVxVy (x y : Nibble)
  /-- `9XY0` skip if `VX ≠ VY` (R118). -/
  | sneVxVy (x y : Nibble)
  /-- `6XNN` load an immediate (R131). -/
  | ldVxNn (x : Nibble) (nn : Byte)
  /-- `7XNN` add an immediate (R132). -/
  | addVxNn (x : Nibble) (nn : Byte)
  /-- `8XY0` move (R133). -/
  | ldVxVy (x y : Nibble)
  /-- `8XY1` or (R134). -/
  | or (x y : Nibble)
  /-- `8XY2` and (R135). -/
  | and (x y : Nibble)
  /-- `8XY3` exclusive or (R136). -/
  | xor (x y : Nibble)
  /-- `8XY4` add, carry to `VF` (R137). -/
  | addVxVy (x y : Nibble)
  /-- `8XY5` subtract, no-borrow to `VF` (R138). -/
  | sub (x y : Nibble)
  /-- `8XY6` shift right; `Y` is ignored (R139). -/
  | shr (x y : Nibble)
  /-- `8XY7` reverse subtract, no-borrow to `VF` (R140). -/
  | subn (x y : Nibble)
  /-- `8XYE` shift left; `Y` is ignored (R141). -/
  | shl (x y : Nibble)
  /-- `ANNN` set `I` (R160). -/
  | ldINnn (nnn : Addr)
  /-- `BNNN` jump to `NNN + V0` (R119). -/
  | jpV0 (nnn : Addr)
  /-- `CXNN` masked random byte (R142). -/
  | rnd (x : Nibble) (nn : Byte)
  /-- `DXYN` draw a sprite of `N` rows (R181). -/
  | drw (x y n : Nibble)
  /-- `EX9E` skip if the key `VX` is pressed (R201). -/
  | skp (x : Nibble)
  /-- `EXA1` skip if the key `VX` is not pressed (R202). -/
  | sknp (x : Nibble)
  /-- `FX07` read the delay timer (R203). -/
  | ldVxDt (x : Nibble)
  /-- `FX0A` wait for a key (R204). -/
  | ldVxK (x : Nibble)
  /-- `FX15` write the delay timer (R205). -/
  | ldDtVx (x : Nibble)
  /-- `FX18` write the sound timer (R206). -/
  | ldStVx (x : Nibble)
  /-- `FX1E` add to `I` (R161). -/
  | addIVx (x : Nibble)
  /-- `FX29` point `I` at a glyph (R162). -/
  | ldFVx (x : Nibble)
  /-- `FX33` store decimal digits (R163). -/
  | ldBVx (x : Nibble)
  /-- `FX55` store `V0..VX` (R164). -/
  | ldMemVx (x : Nibble)
  /-- `FX65` load `V0..VX` (R165). -/
  | ldVxMem (x : Nibble)
  deriving DecidableEq, Repr

end Sys2Proof
end

