-- ==== Sys2Proof/Config.lean ====
section
/-! DEFINITION. What is fixed for one machine: the sizes of 00_scope.md R9, the parameters a model takes, and the
values the spec leaves free. -/

namespace Sys2Proof

/-- `MEM_SIZE`: addresses `0x000..0xFFF` (R50). -/
def memSize : Nat := 4096

/-- `USER_BASE`, the first byte of the user region and of a program image (R52). -/
def userBase : Nat := 0x200

/-- `USER_END`, the last byte of the user region and the bound of every check (R52, R54, R111). -/
def userEnd : Nat := 0xE9F

/-- `STACK_BASE`, the value of `SP` when the stack is empty (R26). -/
def stackBase : Nat := 0xEA0

/-- The parameters of R9 and the configuration input `WRAP_Y` (R35, R41). They are no part of the core's record: no
step and no reset changes them. State carries them so that every statement is about every value of them. -/
structure Config where
  /-- `STACK_SLOTS`: how many return addresses the stack holds (D2). -/
  stackSlots : Nat
  /-- `MAX_PROGRAM_SIZE`: the longest image `load_program` takes (D3). -/
  maxProgramSize : Nat
  /-- `PROTECT_SYSTEM_REGION`: whether the checked write path refuses addresses below `0x200` (D4). -/
  protectSystem : Bool
  /-- `WRAP_Y`: whether sprite rows wrap at the bottom of the screen or are clipped (R35, D23). -/
  wrapY : Bool
  /-- `FONT`: 16 glyphs of 5 rows, the most significant bit leftmost (R36, D22). -/
  font : Vector (Vector Byte 5) 16
  deriving DecidableEq, Repr

/-- `STACK_LIMIT`: the value of `SP` when the stack is full (R9, R26). -/
def Config.stackLimit (c : Config) : Nat := stackBase + 2 * c.stackSlots

/-- FREE VALUE. The byte the outside supplies to the `n`-th executed `CXNN` for which the state lists none
(R15, R142, R248; log 3). -/
opaque Config.randomByte : Nat → Byte

/-- FREE VALUE. What `WRAP_Y` is when the machine is powered on: the spec leaves it OPEN (R35, D23; log 2). -/
opaque Config.bootWrapY : Bool

/-- The default of the parameter `FONT`. PRESUMED: the spec supplies it from general knowledge (R36, log 8). -/
def Config.defaultFont : Vector (Vector Byte 5) 16 :=
  #v[#v[0xF0, 0x90, 0x90, 0x90, 0xF0], #v[0x20, 0x60, 0x20, 0x20, 0x70],
     #v[0xF0, 0x10, 0xF0, 0x80, 0xF0], #v[0xF0, 0x10, 0xF0, 0x10, 0xF0],
     #v[0x90, 0x90, 0xF0, 0x10, 0x10], #v[0xF0, 0x80, 0xF0, 0x10, 0xF0],
     #v[0xF0, 0x80, 0xF0, 0x90, 0xF0], #v[0xF0, 0x10, 0x20, 0x40, 0x40],
     #v[0xF0, 0x90, 0xF0, 0x90, 0xF0], #v[0xF0, 0x90, 0xF0, 0x10, 0xF0],
     #v[0xF0, 0x90, 0xF0, 0x90, 0x90], #v[0xE0, 0x90, 0xE0, 0x90, 0xE0],
     #v[0xF0, 0x80, 0x80, 0x80, 0xF0], #v[0xE0, 0x90, 0x90, 0x90, 0xE0],
     #v[0xF0, 0x80, 0xF0, 0x80, 0xF0], #v[0xF0, 0x80, 0xF0, 0x80, 0x80]]

/-- The defaults of R9 (log 8, log 10, log 11, log 12), with `WRAP_Y` free (log 2). -/
def Config.default : Config where
  stackSlots := 12
  maxProgramSize := 3231
  protectSystem := true
  wrapY := Config.bootWrapY
  font := Config.defaultFont

end Sys2Proof
end

