-- ==== Sys2Proof/WellFormed.lean ====
section
/-! DEFINITION. What must hold of the data a machine is built from. Every field of `Instr` has the exact width the
encoding gives it (R84, R88), so an instruction with a field out of range cannot be written and the check of an
instruction has nothing left to refuse (log 27). The checks that can fail are those of the parameters (R9). -/

namespace Sys2Proof

/-- Every term of `Instr` is a legal instruction: its fields are typed to the widths of R84, and no combination of
field values of a row is reserved (R94). -/
def Instr.wellFormed : Instr → Bool
  | .cls | .ret => true
  | .jp _ | .call _ | .ldINnn _ | .jpV0 _ => true
  | .seVxNn _ _ | .sneVxNn _ _ | .ldVxNn _ _ | .addVxNn _ _ | .rnd _ _ => true
  | .seVxVy _ _ | .sneVxVy _ _ | .ldVxVy _ _ | .or _ _ | .and _ _ | .xor _ _ => true
  | .addVxVy _ _ | .sub _ _ | .shr _ _ | .subn _ _ | .shl _ _ => true
  | .drw _ _ _ => true
  | .skp _ | .sknp _ | .ldVxDt _ | .ldVxK _ | .ldDtVx _ | .ldStVx _ => true
  | .addIVx _ | .ldFVx _ | .ldBVx _ | .ldMemVx _ | .ldVxMem _ => true

/-- `STACK_SLOTS` is legal from 1 to 48 (R9, D2). -/
def Config.stackSlotsLegal (c : Config) : Bool := decide (1 ≤ c.stackSlots) && decide (c.stackSlots ≤ 48)

/-- An image of `MAX_PROGRAM_SIZE` bytes ends at or below `0xE9F` (R56). -/
def Config.maxProgramSizeLegal (c : Config) : Bool := decide (userBase + c.maxProgramSize ≤ userEnd + 1)

/-- The parameters are legal. -/
def Config.wellFormed (c : Config) : Bool := c.stackSlotsLegal && c.maxProgramSizeLegal

end Sys2Proof
end

