-- ==== Sys2Proof/Decode.lean ====
section
/-! DEFINITION. The decoder of 30_encoding.md R87, total on any word and any bytes, rejecting by name; and the encoder,
written from the formats of R85 and the patterns of R93. -/

namespace Sys2Proof

/-- Why bytes are no instruction. -/
inductive DecodeReject where
  /-- The word is outside the table (R87, R94). -/
  | invalidOpcode (w : Word)
  /-- Fewer than the two bytes of an instruction word (R80). -/
  | tooShort
  deriving DecidableEq, Repr

/-! The fields of a word (R84). -/

def fieldF (w : Word) : Nibble := w.extractLsb' 12 4
def fieldX (w : Word) : Nibble := w.extractLsb' 8 4
def fieldY (w : Word) : Nibble := w.extractLsb' 4 4
def fieldN (w : Word) : Nibble := w.extractLsb' 0 4
def fieldNN (w : Word) : Byte := w.extractLsb' 0 8
def fieldNNN (w : Word) : Addr := w.extractLsb' 0 12

/-- Family 0 compares the whole word: its low 12 bits are `0E0` or `0EE` (R87, D11). -/
def decode0 (w : Word) : Except DecodeReject Instr :=
  match (fieldNNN w).toNat with
  | 0x0E0 => .ok .cls
  | 0x0EE => .ok .ret
  | _ => .error (.invalidOpcode w)

/-- Families 5 and 9 take `N = 0` only (R87, D11). -/
def decodeN0 (w : Word) (i : Instr) : Except DecodeReject Instr :=
  match (fieldN w).toNat with
  | 0x0 => .ok i
  | _ => .error (.invalidOpcode w)

/-- Family 8 selects on `N` (R87). -/
def decode8 (w : Word) : Except DecodeReject Instr :=
  match (fieldN w).toNat with
  | 0x0 => .ok (.ldVxVy (fieldX w) (fieldY w))
  | 0x1 => .ok (.or (fieldX w) (fieldY w))
  | 0x2 => .ok (.and (fieldX w) (fieldY w))
  | 0x3 => .ok (.xor (fieldX w) (fieldY w))
  | 0x4 => .ok (.addVxVy (fieldX w) (fieldY w))
  | 0x5 => .ok (.sub (fieldX w) (fieldY w))
  | 0x6 => .ok (.shr (fieldX w) (fieldY w))
  | 0x7 => .ok (.subn (fieldX w) (fieldY w))
  | 0xE => .ok (.shl (fieldX w) (fieldY w))
  | _ => .error (.invalidOpcode w)

/-- Family E selects on `NN` (R87). -/
def decodeE (w : Word) : Except DecodeReject Instr :=
  match (fieldNN w).toNat with
  | 0x9E => .ok (.skp (fieldX w))
  | 0xA1 => .ok (.sknp (fieldX w))
  | _ => .error (.invalidOpcode w)

/-- Family F selects on `NN` (R87). -/
def decodeF (w : Word) : Except DecodeReject Instr :=
  match (fieldNN w).toNat with
  | 0x07 => .ok (.ldVxDt (fieldX w))
  | 0x0A => .ok (.ldVxK (fieldX w))
  | 0x15 => .ok (.ldDtVx (fieldX w))
  | 0x18 => .ok (.ldStVx (fieldX w))
  | 0x1E => .ok (.addIVx (fieldX w))
  | 0x29 => .ok (.ldFVx (fieldX w))
  | 0x33 => .ok (.ldBVx (fieldX w))
  | 0x55 => .ok (.ldMemVx (fieldX w))
  | 0x65 => .ok (.ldVxMem (fieldX w))
  | _ => .error (.invalidOpcode w)

/-- `Decode(w)` of R87: it reads the word and nothing else. -/
def decode (w : Word) : Except DecodeReject Instr :=
  match (fieldF w).toNat with
  | 0x0 => decode0 w
  | 0x1 => .ok (.jp (fieldNNN w))
  | 0x2 => .ok (.call (fieldNNN w))
  | 0x3 => .ok (.seVxNn (fieldX w) (fieldNN w))
  | 0x4 => .ok (.sneVxNn (fieldX w) (fieldNN w))
  | 0x5 => decodeN0 w (.seVxVy (fieldX w) (fieldY w))
  | 0x6 => .ok (.ldVxNn (fieldX w) (fieldNN w))
  | 0x7 => .ok (.addVxNn (fieldX w) (fieldNN w))
  | 0x8 => decode8 w
  | 0x9 => decodeN0 w (.sneVxVy (fieldX w) (fieldY w))
  | 0xA => .ok (.ldINnn (fieldNNN w))
  | 0xB => .ok (.jpV0 (fieldNNN w))
  | 0xC => .ok (.rnd (fieldX w) (fieldNN w))
  | 0xD => .ok (.drw (fieldX w) (fieldY w) (fieldN w))
  | 0xE => decodeE w
  | 0xF => decodeF w
  | _ => .error (.invalidOpcode w)

/-- Two bytes make a word, the one at the lower address the high byte (R58, R81). -/
def wordOfBytes (hi lo : Byte) : Word := hi ++ lo

/-- The high byte of a word, stored at the lower address (R58). -/
def highByte (w : Word) : Byte := w.extractLsb' 8 8

/-- The low byte of a word, stored at the higher address (R58). -/
def lowByte (w : Word) : Byte := w.extractLsb' 0 8

/-- The bytes of a word in the order memory holds them (R58, R80). -/
def wordBytes (w : Word) : List Byte := [highByte w, lowByte w]

/-- Reads one instruction off the front of a list of bytes and gives the rest (R80, R81). -/
def decodeBytes : List Byte → Except DecodeReject (Instr × List Byte)
  | hi :: lo :: rest =>
    match decode (wordOfBytes hi lo) with
    | .ok i => .ok (i, rest)
    | .error e => .error e
  | _ => .error .tooShort

/-- Formats `R`: family, register, byte (R85). -/
def encodeR (f : Nibble) (x : Nibble) (nn : Byte) : Word := (f ++ x) ++ nn

/-- Format `RR` and `D`: family, two registers, a low nibble (R85). -/
def encodeRR (f : Nibble) (x y n : Nibble) : Word := (f ++ x) ++ (y ++ n)

/-- Format `A`: family and a 12-bit address (R85). -/
def encodeA (f : Nibble) (nnn : Addr) : Word := f ++ nnn

/-- The word of an instruction, row by row of R93 in the formats of R85 (`RS` is `R` with a fixed byte). -/
def encode : Instr → Word
  | .cls => 0x00E0#16
  | .ret => 0x00EE#16
  | .jp nnn => encodeA 0x1#4 nnn
  | .call nnn => encodeA 0x2#4 nnn
  | .seVxNn x nn => encodeR 0x3#4 x nn
  | .sneVxNn x nn => encodeR 0x4#4 x nn
  | .seVxVy x y => encodeRR 0x5#4 x y 0x0#4
  | .sneVxVy x y => encodeRR 0x9#4 x y 0x0#4
  | .ldVxNn x nn => encodeR 0x6#4 x nn
  | .addVxNn x nn => encodeR 0x7#4 x nn
  | .ldVxVy x y => encodeRR 0x8#4 x y 0x0#4
  | .or x y => encodeRR 0x8#4 x y 0x1#4
  | .and x y => encodeRR 0x8#4 x y 0x2#4
  | .xor x y => encodeRR 0x8#4 x y 0x3#4
  | .addVxVy x y => encodeRR 0x8#4 x y 0x4#4
  | .sub x y => encodeRR 0x8#4 x y 0x5#4
  | .shr x y => encodeRR 0x8#4 x y 0x6#4
  | .subn x y => encodeRR 0x8#4 x y 0x7#4
  | .shl x y => encodeRR 0x8#4 x y 0xE#4
  | .ldINnn nnn => encodeA 0xA#4 nnn
  | .jpV0 nnn => encodeA 0xB#4 nnn
  | .rnd x nn => encodeR 0xC#4 x nn
  | .drw x y n => encodeRR 0xD#4 x y n
  | .skp x => encodeR 0xE#4 x 0x9E#8
  | .sknp x => encodeR 0xE#4 x 0xA1#8
  | .ldVxDt x => encodeR 0xF#4 x 0x07#8
  | .ldVxK x => encodeR 0xF#4 x 0x0A#8
  | .ldDtVx x => encodeR 0xF#4 x 0x15#8
  | .ldStVx x => encodeR 0xF#4 x 0x18#8
  | .addIVx x => encodeR 0xF#4 x 0x1E#8
  | .ldFVx x => encodeR 0xF#4 x 0x29#8
  | .ldBVx x => encodeR 0xF#4 x 0x33#8
  | .ldMemVx x => encodeR 0xF#4 x 0x55#8
  | .ldVxMem x => encodeR 0xF#4 x 0x65#8

/-- The row's word as the opcode table numbers it: the low `nbits` bits of `w`, every bit above them 0. -/
def tableWord (nbits w : Nat) : Word := BitVec.ofNat 16 (w % 2 ^ nbits)

/-- What the decoder reads from the instruction word whose bits are `w`, laid out in bytes as memory holds it. -/
def decodeTableWord (nbits w : Nat) : Option Instr :=
  match decodeBytes (wordBytes (tableWord nbits w)) with
  | .ok (i, _) => some i
  | .error _ => none

end Sys2Proof
end

