-- ==== Sys2Proof/Machine/State.lean ====
section
/-! DEFINITION. The state of the machine: the core's record of 10_state.md R20, the ghost bit of R230, the parameters
and inputs of R41, and what the host has asked for. Plain data throughout. -/

namespace Sys2Proof.Machine

/-- The execution state (R31). -/
inductive RunState where
  | running
  /-- Waiting for a key-down; `x` is the register that will receive the key. -/
  | awaitingKey (x : Nibble)
  deriving DecidableEq, Repr

/-- The named faults of R220, which the core LATCHES and goes on from; they stop nothing (R221). -/
inductive FaultCode where
  | stackOverflow
  | stackUnderflow
  | refusedMemoryAccess
  | invalidOpcode
  | loadBufferTooLarge
  /-- Reserved: nothing raises it (R183). -/
  | clearScreenFailure
  | undefinedOperation
  deriving DecidableEq, Repr

/-- The error latch with the fields of R33. -/
structure ErrLatch where
  valid : Bool
  code : Byte
  word : Word
  reason : Byte
  deriving DecidableEq, Repr

/-- The empty latch: `valid = 0`, other fields 0 (R33). -/
def ErrLatch.empty : ErrLatch := ⟨false, 0, 0, 0⟩

/-- The host's operations (R235). A key number has 4 bits: the host has no move with another (R243). -/
inductive HostOp where
  | reset
  | loadProgram (buf : List Byte)
  | tick
  | decrementTimers
  | keyDown (k : Nibble)
  | keyUp (k : Nibble)
  | readPixels
  | readSound
  | readError
  | clearError
  deriving DecidableEq, Repr

/-- What a host operation returns (the outputs column of R235). -/
inductive HostOutput where
  /-- The operation has no output, or reports only that it was done. -/
  | done
  /-- The word a tick returns (R99). -/
  | word (w : Word)
  /-- The fault a tick or a load returns (R99, R262). -/
  | fault (code : Byte)
  /-- The pixels, row by row (R245). -/
  | pixels (fb : Vector (Vector Bool 64) 32)
  /-- The sound timer (R244). -/
  | sound (st : Byte)
  /-- The latch (R247). -/
  | error (e : ErrLatch)
  deriving DecidableEq, Repr

/-- The state. -/
structure State where
  /-- The bytes that differ from the reset image, addresses strictly rising (R37, R50; log 9). -/
  mem : List Host.Cell
  /-- `V0..VF` (R21). -/
  v : Vector Byte 16
  /-- `I` (R24). -/
  i : Word
  /-- `PC` (R25). -/
  pc : Word
  /-- `SP` (R26). -/
  sp : Word
  /-- `DT` (R28). -/
  dt : Byte
  /-- `ST` (R29). -/
  st : Byte
  /-- `key[0..15]`, `true` when pressed (R30). -/
  keys : Vector Bool 16
  /-- `run` (R31). -/
  run : RunState
  /-- `fb`: 32 rows of 64 columns (R32). -/
  fb : Vector (Vector Bool 64) 32
  /-- `err` (R33). -/
  err : ErrLatch
  /-- `last_opcode` (R34). -/
  lastOpcode : Word
  /-- The ghost bit `faulted` (R230, D32). -/
  faulted : Bool
  /-- The parameters and `WRAP_Y`; nothing changes them (R41; log 1). -/
  config : Config
  /-- The model's own: host operations asked for, the next one first (R225, R235; log 4). -/
  pending : List HostOp
  /-- The model's own: random bytes ready for the next executed `CXNN`s (R248; log 3). -/
  randoms : List Byte
  /-- The model's own: how many free random bytes have been drawn (log 3). -/
  draws : Nat
  deriving DecidableEq, Repr

/-- Why the machine stops. The spec's own faults do not stop it: they are latched in `err` (R221). -/
inductive Fault where
  /-- Raised by the raw path (push, pop, program load) at an address above `0xFFF`, where the spec has no memory and
  says that no user of the raw path can come (R56). Safe: the model stops; no state that meets the invariant of
  Safety.lean reaches it (log 5). -/
  | noSuchAddress
  deriving DecidableEq, Repr

/-- Why an instruction has no meaning in this model. -/
inductive Refusal where
  /-- Raised by an arm of `exec` whose instruction has no meaning yet; safe. No arm is so now. -/
  | notModelled (mnemonic : String)
  deriving DecidableEq, Repr

/-- The outcome of an instruction, of a host operation, of a step. -/
abbrev Result := Host.Outcome State Fault Refusal

/-- The state after reset, for a machine with the parameters `c` (R38, R260). -/
def State.resetWith (c : Config) : State where
  mem := []
  v := Vector.replicate 16 0
  i := 0x200
  pc := 0x200
  sp := 0xEA0
  dt := 0
  st := 0
  keys := Vector.replicate 16 false
  run := .running
  fb := Vector.replicate 32 (Vector.replicate 64 false)
  err := .empty
  lastOpcode := 0
  faulted := false
  config := c
  pending := []
  randoms := []
  draws := 0

/-- The machine right after power-on and reset, with the default parameters (R38, R9). -/
def State.reset : State := State.resetWith Config.default

end Sys2Proof.Machine
end

