-- ==== Sys2Proof/Machine/Memory.lean ====
section
/-! DEFINITION. Memory as the sorted list of the bytes that differ from the reset image (R37, R50; log 9). -/

namespace Sys2Proof.Machine

/-- What a byte that nothing has changed holds, which is what reset leaves there: `FONT` at `0x000..0x04F`, zero above
(R37, R36). -/
def resetByte (c : Config) (a : Nat) : Byte :=
  if h : a < 80 then (c.font[a / 5]'(by omega))[a % 5]'(by omega) else 0

/-- `mem[a]` (R50). -/
def Memory.read (c : Config) : List Host.Cell → Nat → Byte
  | [], a => resetByte c a
  | (b, w) :: m, a => if b = a then w else Memory.read c m a

/-- `mem[a] <- v`, keeping the canonical form: an entry that would equal the reset image is left out. -/
def Memory.write (c : Config) : List Host.Cell → Nat → Byte → List Host.Cell
  | [], a, v => if v = resetByte c a then [] else [(a, v)]
  | (b, w) :: m, a, v =>
    if a < b then
      if v = resetByte c a then (b, w) :: m else (a, v) :: (b, w) :: m
    else if a = b then
      if v = resetByte c a then m else (a, v) :: m
    else (b, w) :: Memory.write c m a v

/-- The canonical form: addresses strictly rising and inside memory, no entry equal to the reset image. -/
abbrev Memory.wf (c : Config) (m : List Host.Cell) : Prop :=
  m.Pairwise (fun p q => p.1 < q.1) ∧ ∀ p ∈ m, p.1 < memSize ∧ p.2 ≠ resetByte c p.1

end Sys2Proof.Machine
end

