-- ==== Sys2Proof/Machine/Ops.lean ====
section
/-! DEFINITION. The named operations over the state: registers, memory by its two paths, raising a fault, skip and
target check, push and pop, fetch. -/

namespace Sys2Proof.Machine

/-! Registers (R12, R21, R24). -/

/-- `V[x]`. -/
def readV (s : State) (x : Nibble) : Byte := s.v[x.toNat]'(x.isLt)

/-- `V[x] <- b`. -/
def writeV (s : State) (x : Nibble) (b : Byte) : State := { s with v := s.v.set x.toNat b x.isLt }

/-- The number of `VF`, the flag register (R22). -/
def flagReg : Nibble := 0xF#4

/-- Writes the result to `V[x]`, then the flag to `VF`: where `x` is `F` the flag is the final value (R130, D9). -/
def writeResultThenFlag (s : State) (x : Nibble) (r flag : Byte) : State := writeV (writeV s x r) flagReg flag

/-- `I <- v`, which keeps 12 bits (R24). -/
def writeI (s : State) (w : Word) : State := { s with i := w &&& 0x0FFF#16 }

/-- `PC <- target`. -/
def writePC (s : State) (w : Word) : State := { s with pc := w }

/-! Memory (R53 to R57). -/

/-- The byte stored at `a`. -/
def byteAt (s : State) (a : Nat) : Byte := Memory.read s.config s.mem a

/-- Stores a byte at `a`. -/
def setByte (s : State) (a : Nat) (b : Byte) : State := { s with mem := Memory.write s.config s.mem a b }

/-- `RawRead(a)`, unchecked; none where there is no such address (R56; log 5). -/
def rawRead (s : State) (a : Nat) : Option Byte := if a < memSize then some (byteAt s a) else none

/-- `RawWrite(a, b)`, unchecked; none where there is no such address (R56; log 5). -/
def rawWrite (s : State) (a : Nat) (b : Byte) : Option State := if a < memSize then some (setByte s a b) else none

/-- `RawWrite` of a sequence of bytes at rising addresses from `a` (R262). -/
def rawWriteBytes (s : State) (a : Nat) : List Byte → Option State
  | [] => some s
  | b :: bs =>
    match rawWrite s a b with
    | some t => rawWriteBytes t (a + 1) bs
    | none => none

/-- `MemRead(a, 1)`: none is a refusal (R54). -/
def memRead (s : State) (a : Nat) : Option Byte := if userEnd < a then none else some (byteAt s a)

/-- `MemWrite(a, 1, b)`: none is a refusal, and then no byte is written (R55). -/
def memWrite (s : State) (a : Nat) (b : Byte) : Option State :=
  if userEnd < a then none
  else if s.config.protectSystem = true ∧ a < userBase then none
  else some (setByte s a b)

/-! Faults: the one way an exception is taken (R14, R220, R221). -/

/-- `err.code` of each fault (R220). -/
def faultNumber : FaultCode → Byte
  | .stackOverflow => 1
  | .stackUnderflow => 2
  | .refusedMemoryAccess => 3
  | .invalidOpcode => 4
  | .loadBufferTooLarge => 5
  | .clearScreenFailure => 6
  | .undefinedOperation => 7

/-- `err.reason` of a fetch past the end of memory (R220). -/
def reasonFetchOutOfRange : Byte := 1

/-- `err.reason` of a key number above 15 (R220). -/
def reasonKeyIndexOutOfRange : Byte := 2

/-- `raise F(info)`: latches the fault over whatever the latch held and sets the ghost bit. Nothing is saved, control
does not move, and every write made before it stays (R14, R221, R222, R228, R230). There is no return from a fault
(R227). -/
def raise (s : State) (f : FaultCode) (reason : Byte) (word : Word) : State :=
  { s with err := ⟨true, faultNumber f, word, reason⟩, faulted := true }

/-- `raise RefusedMemoryAccess(word = opcode)`: the opcode being executed is the word fetched last (R54, R34; log 7). -/
def refuseAccess (s : State) : State := raise s .refusedMemoryAccess 0 s.lastOpcode

/-! Control flow (R110, R111). -/

/-- `SkipNext()` (R110). -/
def skipNext (s : State) : State := writePC s (s.pc + 2)

/-- Whether `CheckTarget(t)` lets `t` pass; `t` is not wrapped (R111). -/
def targetOk (t : Nat) : Bool := decide (t ≤ userEnd)

/-- The push of `CALL`: high byte at `SP`, low byte at `SP + 1`, then `SP <- SP + 2` (R114, R58). -/
def pushWord (s : State) (w : Word) : Option State :=
  match rawWrite s s.sp.toNat (highByte w) with
  | none => none
  | some t =>
    match rawWrite t (s.sp.toNat + 1) (lowByte w) with
    | none => none
    | some u => some { u with sp := s.sp + 2 }

/-- The pop of `RET`: `SP <- SP - 2`, then the high byte at `SP` and the low byte at `SP + 1`; the slot keeps its bytes
(R112, R27). -/
def popWord (s : State) : Option (Word × State) :=
  match rawRead s (s.sp - 2).toNat, rawRead s ((s.sp - 2).toNat + 1) with
  | some hi, some lo => some (wordOfBytes hi lo, { s with sp := s.sp - 2 })
  | _, _ => none

/-! Fetch (R81). -/

/-- The word at `PC`, two raw bytes with the high byte first; none when `PC + 1 > 0xFFF` (R81, R82). -/
def fetchedWord (s : State) : Option Word :=
  match rawRead s s.pc.toNat, rawRead s (s.pc.toNat + 1) with
  | some hi, some lo => some (wordOfBytes hi lo)
  | _, _ => none

/-- What fetch leaves for the handler: `PC` moved past the word, `last_opcode` the word (R81). -/
def afterFetch (s : State) (w : Word) : State := { s with pc := s.pc + 2, lastOpcode := w }

/-! The random byte (R15, R248). -/

/-- The byte the next executed `CXNN` draws: the first the outside has ready, and where it has none, a free value
(log 3). -/
def nextRandom (s : State) : Byte :=
  match s.randoms with
  | r :: _ => r
  | [] => Config.randomByte s.draws

/-- Takes that byte: one per executed `CXNN` (R248). -/
def takeRandom (s : State) : State :=
  match s.randoms with
  | _ :: rs => { s with randoms := rs }
  | [] => { s with draws := s.draws + 1 }

end Sys2Proof.Machine
end

