-- ==== Sys2Proof/Machine/Alu.lean ====
section
/-! DEFINITION. Register loads and the ALU (41_alu.md). Operands are read once, before any write (R130). -/

namespace Sys2Proof.Machine

/-- `6XNN` (R131). -/
def execLdVxNn (x : Nibble) (nn : Byte) (s : State) : Result := .next (writeV s x nn)

/-- `7XNN`: no flag (R132). -/
def execAddVxNn (x : Nibble) (nn : Byte) (s : State) : Result := .next (writeV s x (readV s x + nn))

/-- `8XY0` (R133). -/
def execLdVxVy (x y : Nibble) (s : State) : Result := .next (writeV s x (readV s y))

/-- `8XY1` (R134). -/
def execOr (x y : Nibble) (s : State) : Result := .next (writeV s x (readV s x ||| readV s y))

/-- `8XY2` (R135). -/
def execAnd (x y : Nibble) (s : State) : Result := .next (writeV s x (readV s x &&& readV s y))

/-- `8XY3` (R136). -/
def execXor (x y : Nibble) (s : State) : Result := .next (writeV s x (readV s x ^^^ readV s y))

/-- `8XY4` (R137). -/
def execAddVxVy (x y : Nibble) (s : State) : Result :=
  .next (writeResultThenFlag s x (readV s x + readV s y) (carryFlag (readV s x) (readV s y)))

/-- `8XY5` (R138). -/
def execSub (x y : Nibble) (s : State) : Result :=
  .next (writeResultThenFlag s x (readV s x - readV s y) (noBorrowFlag (readV s x) (readV s y)))

/-- `8XY6`: it shifts `VX`, and reads nothing of `VY` (R139). -/
def execShr (x _y : Nibble) (s : State) : Result :=
  .next (writeResultThenFlag s x (readV s x >>> 1) (lsbFlag (readV s x)))

/-- `8XY7` (R140). -/
def execSubn (x y : Nibble) (s : State) : Result :=
  .next (writeResultThenFlag s x (readV s y - readV s x) (noBorrowFlag (readV s y) (readV s x)))

/-- `8XYE`: it shifts `VX`, and reads nothing of `VY` (R141). -/
def execShl (x _y : Nibble) (s : State) : Result :=
  .next (writeResultThenFlag s x (readV s x <<< 1) (msbFlag (readV s x)))

/-- `CXNN`: a byte from outside, masked (R142, R248). -/
def execRnd (x : Nibble) (nn : Byte) (s : State) : Result :=
  .next (writeV (takeRandom s) x (nextRandom s &&& nn))

end Sys2Proof.Machine
end

