-- ==== Sys2Proof/Machine/Operands.lean ====
section
/-! DEFINITION. The operand forms beyond a register and an immediate (R86, R166): effective addresses, jump targets, key
numbers, glyph addresses, decimal digits, register blocks. -/

namespace Sys2Proof.Machine

/-- `zext_16` of a byte (R11). -/
def zextWord (b : Byte) : Word := b.setWidth 16

/-- `zext_16` of a 12-bit address (R11, R86). -/
def addrWord (nnn : Addr) : Word := nnn.setWidth 16

/-- The one data addressing mode: `I` plus a small offset, not wrapped (R166, R51). -/
def effAddr (s : State) (off : Nat) : Nat := s.i.toNat + off

/-- The target of `BNNN`: `NNN + V0`, not wrapped (R119). -/
def indexedTarget (s : State) (nnn : Addr) : Nat := nnn.toNat + (readV s 0).toNat

/-- `KeyIndex(v)`: none above 15 (R200). -/
def keyIndex (b : Byte) : Option Nibble := if 15 < b.toNat then none else some (b.setWidth 4)

/-- The state of key `k` (R30). -/
def keyPressed (s : State) (k : Nibble) : Bool := s.keys[k.toNat]'(k.isLt)

/-- The address of the glyph of `FX29`: five bytes a glyph from 0, the whole 8-bit register (R162, D36). -/
def glyphAddr (b : Byte) : Word := BitVec.ofNat 16 (b.toNat * 5)

/-- Hundreds, tens and ones digit of a byte (R163). -/
def bcdDigits (b : Byte) : List Byte :=
  [BitVec.ofNat 8 (b.toNat / 100), BitVec.ofNat 8 (b.toNat / 10 % 10), BitVec.ofNat 8 (b.toNat % 10)]

/-- How many registers `V0..VX` are (R164, R165). -/
def regCount (x : Nibble) : Nat := x.toNat + 1

/-- The values of `V0..VX`, in order (R164). -/
def regBlock (s : State) (x : Nibble) : List Byte := s.v.toList.take (regCount x)

end Sys2Proof.Machine
end

