-- ==== Sys2Proof/Machine/Display.lean ====
section
/-! DEFINITION. The framebuffer: clear and sprite draw (43_display.md). -/

namespace Sys2Proof.Machine

/-- `fb[x][y]` (R12, R32). -/
def pixel (s : State) (x : Fin 64) (y : Fin 32) : Bool := s.fb[y][x]

/-- Toggles one pixel. -/
def togglePixel (s : State) (x : Fin 64) (y : Fin 32) : State :=
  { s with fb := s.fb.set y (s.fb[y].set x (!(pixel s x y))) }

/-- `00E0` (R180). -/
def execCls (s : State) : Result := .next { s with fb := Vector.replicate 32 (Vector.replicate 64 false) }

/-- One set sprite bit: a set pixel raises the sticky collision flag, and the pixel is toggled (R181). -/
def plot (s : State) (x : Fin 64) (y : Fin 32) : State :=
  togglePixel (if pixel s x y then writeV s flagReg 1 else s) x y

/-- Column `c` of a sprite row, most significant bit first; `X` always wraps (R181). -/
def drawBit (b : Byte) (vx : Nat) (y : Fin 32) (s : State) (c : Nat) : State :=
  if b.getLsbD (7 - c) then plot s (Fin.ofNat 64 (vx + c)) y else s

/-- The eight columns of a sprite row (R181). -/
def drawRow (s : State) (b : Byte) (vx : Nat) (y : Fin 32) : State := (List.range 8).foldl (drawBit b vx y) s

/-- The rows of a sprite from row `r` on, `n` of them left. A row's byte is read, which may raise, before the clip test;
a clipped row ends the instruction without a fault (R181). -/
def drawRows (s : State) (vx vy r : Nat) : Nat → State
  | 0 => s
  | n + 1 =>
    match memRead s (effAddr s r) with
    | none => refuseAccess s
    | some b =>
      if s.config.wrapY then drawRows (drawRow s b vx (Fin.ofNat 32 (vy + r))) vx vy (r + 1) n
      else if 32 ≤ vy + r then s
      else drawRows (drawRow s b vx (Fin.ofNat 32 (vy + r))) vx vy (r + 1) n

/-- `DXYN`: `VX` and `VY` are latched before `VF` is cleared (R181, D10). -/
def execDrw (x y n : Nibble) (s : State) : Result :=
  .next (drawRows (writeV s flagReg 0) (readV s x).toNat (readV s y).toNat 0 n.toNat)

end Sys2Proof.Machine
end

