-- ==== Sys2Proof/Machine/Flow.lean ====
section
/-! DEFINITION. Flow control and skips (40_flow.md). `PC` on entry is the instruction's own address plus 2 (R16). -/

namespace Sys2Proof.Machine

/-- `00EE` (R112). -/
def execRet (s : State) : Result :=
  if s.sp.toNat = stackBase then .next (raise s .stackUnderflow 0 0x00EE#16)
  else
    match popWord s with
    | some (w, t) => .next (writePC t w)
    | none => .fault .noSuchAddress

/-- `1NNN` (R113). -/
def execJp (nnn : Addr) (s : State) : Result :=
  if targetOk nnn.toNat then .next (writePC s (addrWord nnn)) else .next (refuseAccess s)

/-- `2NNN`: the overflow check comes first, then the target check, then the push (R114, R224, D6). -/
def execCall (nnn : Addr) (s : State) : Result :=
  if s.sp.toNat = s.config.stackLimit then .next (raise s .stackOverflow 0 s.lastOpcode)
  else if targetOk nnn.toNat then
    match pushWord s s.pc with
    | some t => .next (writePC t (addrWord nnn))
    | none => .fault .noSuchAddress
  else .next (refuseAccess s)

/-- The skips: `SkipNext()` if the condition holds (R110). -/
def skipIf (c : Bool) (s : State) : Result := .next (if c then skipNext s else s)

/-- `3XNN` (R115). -/
def execSeVxNn (x : Nibble) (nn : Byte) (s : State) : Result := skipIf (readV s x == nn) s

/-- `4XNN` (R116). -/
def execSneVxNn (x : Nibble) (nn : Byte) (s : State) : Result := skipIf (readV s x != nn) s

/-- `5XY0` (R117). -/
def execSeVxVy (x y : Nibble) (s : State) : Result := skipIf (readV s x == readV s y) s

/-- `9XY0` (R118). -/
def execSneVxVy (x y : Nibble) (s : State) : Result := skipIf (readV s x != readV s y) s

/-- `BNNN`: the register is always `V0` (R119). -/
def execJpV0 (nnn : Addr) (s : State) : Result :=
  if targetOk (indexedTarget s nnn) then .next (writePC s (BitVec.ofNat 16 (indexedTarget s nnn)))
  else .next (refuseAccess s)

end Sys2Proof.Machine
end

