-- ==== Sys2Proof/Machine/IndexMem.lean ====
section
/-! DEFINITION. The index register and the memory transfers through it (42_index_memory.md). -/

namespace Sys2Proof.Machine

/-- `ANNN` (R160). -/
def execLdINnn (nnn : Addr) (s : State) : Result :=
  if targetOk nnn.toNat then .next (writeI s (addrWord nnn)) else .next (refuseAccess s)

/-- `FX1E`: no flag, no check (R161). -/
def execAddIVx (x : Nibble) (s : State) : Result := .next (writeI s (s.i + zextWord (readV s x)))

/-- `FX29` (R162). -/
def execLdFVx (x : Nibble) (s : State) : Result := .next (writeI s (glyphAddr (readV s x)))

/-- Checked writes of bytes at rising addresses from `I + off`; the first refused one raises and ends the instruction,
and the bytes before it stay (R57). -/
def storeBytes (s : State) (off : Nat) : List Byte → State
  | [] => s
  | b :: bs =>
    match memWrite s (effAddr s off) b with
    | some t => storeBytes t (off + 1) bs
    | none => refuseAccess s

/-- `n` checked reads at rising addresses from `I + off` into `V[off]`, `V[off + 1]`, …; the first refused one raises
and ends the instruction, and the registers before it keep what was loaded (R57, R165, D14). -/
def loadRegs (s : State) (off : Nat) : Nat → State
  | 0 => s
  | n + 1 =>
    match memRead s (effAddr s off) with
    | some b => loadRegs (writeV s (BitVec.ofNat 4 off) b) (off + 1) n
    | none => refuseAccess s

/-- `FX33` (R163). -/
def execLdBVx (x : Nibble) (s : State) : Result := .next (storeBytes s 0 (bcdDigits (readV s x)))

/-- `FX55`; `I` is not changed (R164, D13). -/
def execLdMemVx (x : Nibble) (s : State) : Result := .next (storeBytes s 0 (regBlock s x))

/-- `FX65`; `I` is not changed (R165, D13). -/
def execLdVxMem (x : Nibble) (s : State) : Result := .next (loadRegs s 0 (regCount x))

end Sys2Proof.Machine
end

