-- ==== Sys2Proof/Machine/KeysTimers.lean ====
section
/-! DEFINITION. Key skips, timers and the key wait (44_timers_input.md). -/

namespace Sys2Proof.Machine

/-- A register above 15 names no key (R200, D15). -/
def refuseKey (s : State) : State := raise s .undefinedOperation reasonKeyIndexOutOfRange s.lastOpcode

/-- `EX9E` (R201). -/
def execSkp (x : Nibble) (s : State) : Result :=
  match keyIndex (readV s x) with
  | none => .next (refuseKey s)
  | some k => .next (if keyPressed s k then skipNext s else s)

/-- `EXA1` (R202). -/
def execSknp (x : Nibble) (s : State) : Result :=
  match keyIndex (readV s x) with
  | none => .next (refuseKey s)
  | some k => .next (if keyPressed s k then s else skipNext s)

/-- `FX07` (R203). -/
def execLdVxDt (x : Nibble) (s : State) : Result := .next (writeV s x s.dt)

/-- `FX0A`: nothing but the execution state changes (R204). -/
def execLdVxK (x : Nibble) (s : State) : Result := .next { s with run := .awaitingKey x }

/-- `FX15` (R205). -/
def execLdDtVx (x : Nibble) (s : State) : Result := .next { s with dt := readV s x }

/-- `FX18` (R206). -/
def execLdStVx (x : Nibble) (s : State) : Result := .next { s with st := readV s x }

end Sys2Proof.Machine
end

