-- ==== Sys2Proof/Machine/Tick.lean ====
section
/-! DEFINITION. The tick cycle: fetch, decode, dispatch (30_encoding.md R83). -/

namespace Sys2Proof.Machine

/-- Decode and dispatch of a fetched word; an invalid word raises and changes nothing else (R83, R89). -/
def runWord (w : Word) (s : State) : Result :=
  match decode w with
  | .ok i => exec i s
  | .error _ => .next (raise s .invalidOpcode 0 w)

/-- `tick`. Waiting for a key it changes nothing, however often it comes: there is no timeout, and no tick counts a timer
down (R251, R253, R265). Past the end of memory it raises and executes nothing (R82, R83). It does not look at `err`
(R230). -/
def tick (s : State) : Result :=
  match s.run with
  | .awaitingKey _ => .next s
  | .running =>
    match fetchedWord s with
    | none => .next (raise s .undefinedOperation reasonFetchOutOfRange s.pc)
    | some w => runWord w (afterFetch s w)

end Sys2Proof.Machine
end

