-- ==== Sys2Proof/Machine/HostOps.lean ====
section
/-! DEFINITION. The host's operations and what they return (60_exceptions.md R235, 70_reset_and_hazards.md). -/

namespace Sys2Proof.Machine

/-- `reset`: every component of the core's record at its reset value, whatever it held (R260, R261). The parameters,
the inputs and the host's list are not of that record, and the ghost bit is never cleared (R230). -/
def hostReset (s : State) : State :=
  { State.resetWith s.config with
    faulted := s.faulted, pending := s.pending, randoms := s.randoms, draws := s.draws }

/-- `load_program(buf)`: too long a buffer is refused whole; else its bytes go to `0x200` on (R262). -/
def loadProgram (s : State) (buf : List Byte) : Result :=
  if s.config.maxProgramSize < buf.length then .next (raise s .loadBufferTooLarge 0 0)
  else
    match rawWriteBytes s userBase buf with
    | some t => .next t
    | none => .fault .noSuchAddress

/-- A timer strobed once: it stays at 0, and nothing but a strobe counts it down (R236, R237, R253). -/
def countDown (b : Byte) : Byte := if b = 0 then 0 else b - 1

/-- `decrement_timers` (R236). -/
def decrementTimers (s : State) : State := { s with dt := countDown s.dt, st := countDown s.st }

/-- `key[k] <- b`. -/
def setKey (s : State) (k : Nibble) (b : Bool) : State := { s with keys := s.keys.set k.toNat b k.isLt }

/-- Completes a key wait, which has no timeout and no cancellation (R241, R253). -/
def resolveWait (s : State) (k : Nibble) : State :=
  match s.run with
  | .awaitingKey x => { writeV s x (k.setWidth 8) with run := .running }
  | .running => s

/-- `key_down(k)` (R240, R241). -/
def keyDown (s : State) (k : Nibble) : State := resolveWait (setKey s k true) k

/-- `key_up(k)` (R242). -/
def keyUp (s : State) (k : Nibble) : State := setKey s k false

/-- `clear_error`: the latch, and not the ghost bit (R246, R230). -/
def clearError (s : State) : State := { s with err := .empty }

/-- One host operation. The three reads change nothing (R244, R245, R247). -/
def performHostOp (op : HostOp) (s : State) : Result :=
  match op with
  | .reset => .next (hostReset s)
  | .loadProgram buf => loadProgram s buf
  | .tick => tick s
  | .decrementTimers => .next (decrementTimers s)
  | .keyDown k => .next (keyDown s k)
  | .keyUp k => .next (keyUp s k)
  | .readPixels => .next s
  | .readSound => .next s
  | .readError => .next s
  | .clearError => .next (clearError s)

/-- Whether a fault was raised is read off a run of the same operation from an empty latch, at which neither looks
(R230; log 26). -/
def outputOf (r : Result) (ok : State → HostOutput) : HostOutput :=
  match r with
  | .next t => if t.err.valid then .fault t.err.code else ok t
  | _ => .done

/-- What `tick` returns (R99). -/
def tickOutput (s : State) : HostOutput :=
  match s.run with
  | .awaitingKey _ => .word s.lastOpcode
  | .running => outputOf (tick (clearError s)) (fun t => .word t.lastOpcode)

/-- What an operation returns (R235). -/
def hostOutput (op : HostOp) (s : State) : HostOutput :=
  match op with
  | .loadProgram buf => outputOf (loadProgram (clearError s) buf) (fun _ => .done)
  | .tick => tickOutput s
  | .readPixels => .pixels s.fb
  | .readSound => .sound s.st
  | .readError => .error s.err
  | .reset | .decrementTimers | .keyDown _ | .keyUp _ | .clearError => .done

end Sys2Proof.Machine
end

