-- ==== Sys2Proof/Machine/Step.lean ====
section
/-! DEFINITION. One step of the machine: the host's next operation, and a tick where it has asked for nothing else
(R225, R235; log 4). -/

namespace Sys2Proof.Machine

/-- One atomic host operation (R225). The model has no time: how often each operation comes, and that strobes keep coming
(the fairness premise of R253), is what `pending` holds (log 31). -/
def step (s : State) : Host.Outcome State Fault Refusal :=
  match s.pending with
  | [] => tick s
  | op :: rest => performHostOp op { s with pending := rest }

/-- Where the next instruction is fetched: `PC`, moved to `0x200` only where no word can be fetched at it (R82). -/
def fetchPoint (s : State) : Word := if s.pc.toNat + 1 < memSize then s.pc else 0x200

/-- `s` with the instruction word `w` where the next step fetches, and nothing between that step and its fetch: the
core is running and the host has asked for nothing else. This stands for the load of a program from outside
(log 23). -/
def State.withFetchWord (s : State) (nbits w : Nat) : State :=
  let a := (fetchPoint s).toNat
  let word := tableWord nbits w
  { setByte (setByte s a (highByte word)) (a + 1) (lowByte word) with
    pc := fetchPoint s, run := .running, pending := [] }

end Sys2Proof.Machine
end

