-- ==== Sys2Proof/Safety.lean ====
section
/-! DEFINITION. What claims are stated in: the invariant of the machine, the ends of a run, the severity of a fault, and
what an operation leaves unchanged. -/

namespace Sys2Proof.Machine

/-! The ends of a run (R268). -/

/-- A `raise` has happened (R230, R268 a). -/
def State.hasFaulted (s : State) : Prop := s.faulted = true

/-- Parked on a jump to itself (R268 b). -/
def State.parked (s : State) : Prop :=
  s.run = .running ∧ s.err = .empty ∧ s.pc.toNat ≤ userEnd ∧
    ∃ w, fetchedWord s = some w ∧ decode w = .ok (.jp (s.pc.setWidth 12))

/-- Waiting for a key (R268 c). -/
def State.waiting (s : State) : Prop := ∃ x, s.run = .awaitingKey x

/-- A good end: parked or waiting, and no `raise` has happened, not even one the host cleared (R230, R268). -/
def State.goodEnd (s : State) : Prop := (s.parked ∨ s.waiting) ∧ s.faulted = false

/-- The severities of R229. -/
inductive Severity where
  /-- The host is to stop its run loop. -/
  | fatalToTick
  /-- The load failed; no tick did. -/
  | loadFailure
  deriving DecidableEq, Repr

/-- How severe a fault is (R220, R229). -/
def severity : FaultCode → Severity
  | .loadBufferTooLarge => .loadFailure
  | .stackOverflow | .stackUnderflow | .refusedMemoryAccess | .invalidOpcode | .clearScreenFailure
  | .undefinedOperation => .fatalToTick

/-! The invariant. -/

/-- `SP` is `STACK_BASE + 2k`, `k` the number of return addresses, at most `STACK_SLOTS` (R26). -/
def State.spLegal (s : State) : Prop :=
  ∃ k, k ≤ s.config.stackSlots ∧ s.sp.toNat = stackBase + 2 * k

/-- An empty latch has zero fields; a latched fault is one the core raises, with the reason R220 gives it. -/
def ErrLatch.legal (e : ErrLatch) : Prop :=
  e = .empty ∨
    (e.valid = true ∧
      ((e.code ∈ [faultNumber .stackOverflow, faultNumber .stackUnderflow, faultNumber .refusedMemoryAccess,
          faultNumber .invalidOpcode, faultNumber .loadBufferTooLarge] ∧ e.reason = 0) ∨
       (e.code = faultNumber .undefinedOperation ∧ e.reason ∈ [reasonFetchOutOfRange, reasonKeyIndexOutOfRange])))

/-- The invariant of the machine: what holds at reset and every host operation keeps. -/
structure State.Inv (s : State) : Prop where
  /-- The parameters are legal (R9). -/
  config : s.config.wellFormed = true
  /-- Memory is in its canonical form (log 9). -/
  memory : Memory.wf s.config s.mem
  /-- `I` holds 12 bits (R24). -/
  index : s.i.toNat ≤ 0xFFF
  /-- `SP` is a slot boundary of the stack (R26). -/
  stack : s.spLegal
  /-- The latch is empty or holds a fault of R220. -/
  latch : s.err.legal
  /-- A latched fault has left its record (R230). -/
  ghost : s.err.valid = true → s.faulted = true
  /-- `PC` passes the end of memory by at most a fetch and a skip (R81, R82, R110), and so does no saved `PC`. -/
  pcBound : s.pc.toNat ≤ 0x1002
  /-- What stands in the used stack slots is a `PC` after a fetch (R112). -/
  returns : ∀ k, stackBase + 2 * k < s.sp.toNat →
    (wordOfBytes (byteAt s (stackBase + 2 * k)) (byteAt s (stackBase + 2 * k + 1))).toNat ≤ 0x1000
  /-- Above the stack slots memory is as reset left it, zero (R52, D45). -/
  highZero : ∀ a, s.config.stackLimit ≤ a → byteAt s a = 0
  /-- With the system region protected, it is as reset left it, font and zeros (R37, R55, D4). -/
  systemKept : s.config.protectSystem = true → ∀ a, a < userBase → byteAt s a = resetByte s.config a

/-! What memory a program may reach (R54, R55). -/

/-- The checked write accepts `a` (R55). -/
def Writable (s : State) (a : Nat) : Prop := a ≤ userEnd ∧ (s.config.protectSystem = true → userBase ≤ a)

/-! The picture of a sprite (R181). -/

/-- Row `r` of a sprite from row `vy` falls on screen row `py`: wrapped, or as it is. -/
def rowFalls (wrap : Bool) (vy r py : Nat) : Bool := if wrap then (vy + r) % 32 == py else vy + r == py

/-- Whether one of the first `n` rows of the sprite at `I`, drawn from column `vx` and row `vy`, has a set bit on the
pixel `(px, py)`. -/
def spriteBit (s : State) (vx vy n : Nat) (px : Fin 64) (py : Fin 32) : Bool :=
  (List.range n).any fun r => rowFalls s.config.wrapY vy r py.val &&
    (List.range 8).any fun c => (vx + c) % 64 == px.val && (byteAt s (s.i.toNat + r)).getLsbD (7 - c)

/-- Drawing comes as far as row `r`: the rows before it were not clipped. -/
def rowReached (s : State) (vy r : Nat) : Prop := s.config.wrapY = true ∨ r = 0 ∨ vy + r ≤ 32

/-! What a raise leaves (R221). -/

/-- The latch holds the fault with this number, word and reason, and the ghost bit is set. -/
def Latched (t : State) (code : Byte) (word : Word) (reason : Byte) : Prop :=
  t.err = ⟨true, code, word, reason⟩ ∧ t.faulted = true

/-! What an operation leaves unchanged. -/

/-- The components of the state a statement can name. -/
inductive Component where
  | mem | v | i | pc | sp | dt | st | keys | run | fb | err | lastOpcode | faulted | config | pending | random
  deriving DecidableEq, Repr

/-- `s` and `t` agree on one component. Memory is compared byte by byte as it is read; `random` is what the outside
supplies to `CXNN`. -/
def SameIn (s t : State) : Component → Prop
  | .mem => ∀ a, byteAt t a = byteAt s a
  | .v => ∀ r, readV t r = readV s r
  | .i => t.i = s.i
  | .pc => t.pc = s.pc
  | .sp => t.sp = s.sp
  | .dt => t.dt = s.dt
  | .st => t.st = s.st
  | .keys => t.keys = s.keys
  | .run => t.run = s.run
  | .fb => t.fb = s.fb
  | .err => t.err = s.err
  | .lastOpcode => t.lastOpcode = s.lastOpcode
  | .faulted => t.faulted = s.faulted
  | .config => t.config = s.config
  | .pending => t.pending = s.pending
  | .random => t.randoms = s.randoms ∧ t.draws = s.draws

/-- `s` and `t` agree on every component but the named ones. -/
def SameBut (cs : List Component) (s t : State) : Prop := ∀ c, c ∉ cs → SameIn s t c

/-- What an instruction may change, over all its forms and faults (R62, R223, R24, R26, R30, R31, R32, R41). -/
def footprint : Instr → List Component
  | .cls => [.fb]
  | .ret => [.pc, .sp, .err, .faulted]
  | .jp _ | .jpV0 _ => [.pc, .err, .faulted]
  | .call _ => [.mem, .pc, .sp, .err, .faulted]
  | .seVxNn _ _ | .sneVxNn _ _ | .seVxVy _ _ | .sneVxVy _ _ => [.pc]
  | .ldVxNn _ _ | .addVxNn _ _ | .ldVxVy _ _ | .or _ _ | .and _ _ | .xor _ _ => [.v]
  | .addVxVy _ _ | .sub _ _ | .shr _ _ | .subn _ _ | .shl _ _ => [.v]
  | .rnd _ _ => [.v, .random]
  | .drw _ _ _ => [.v, .fb, .err, .faulted]
  | .skp _ | .sknp _ => [.pc, .err, .faulted]
  | .ldVxDt _ => [.v]
  | .ldVxK _ => [.run]
  | .ldDtVx _ => [.dt]
  | .ldStVx _ => [.st]
  | .ldINnn _ => [.i, .err, .faulted]
  | .addIVx _ | .ldFVx _ => [.i]
  | .ldBVx _ | .ldMemVx _ => [.mem, .err, .faulted]
  | .ldVxMem _ => [.v, .err, .faulted]

/-- The "writes" column of R23: which registers an instruction may write. -/
def mayWriteReg (r : Nibble) : Instr → Bool
  | .ldVxNn x _ | .addVxNn x _ | .ldVxVy x _ | .or x _ | .and x _ | .xor x _ | .rnd x _ | .ldVxDt x => r == x
  | .addVxVy x _ | .sub x _ | .shr x _ | .subn x _ | .shl x _ => r == x || r == 0xF#4
  | .drw _ _ _ => r == 0xF#4
  | .ldVxMem x => r.toNat ≤ x.toNat
  | .cls | .ret | .jp _ | .call _ | .jpV0 _ | .ldINnn _ => false
  | .seVxNn _ _ | .sneVxNn _ _ | .seVxVy _ _ | .sneVxVy _ _ | .skp _ | .sknp _ => false
  | .ldVxK _ | .ldDtVx _ | .ldStVx _ | .addIVx _ | .ldFVx _ | .ldBVx _ | .ldMemVx _ => false

/-- Every general register but the named ones is unchanged. -/
def RegsSameBut (rs : List Nibble) (s t : State) : Prop := ∀ r, r ∉ rs → readV t r = readV s r

/-- Every byte of memory outside the `n` bytes from `a` reads as before. -/
def MemSameOutside (a n : Nat) (s t : State) : Prop := ∀ b, b < a ∨ a + n ≤ b → byteAt t b = byteAt s b

end Sys2Proof.Machine
end

