-- ==== Sys2Proof/Certificates/Slice0/Obligations.lean ====
section
/-! DEFINITION. The statements for the provers. Each says in its docstring which rule of spec/ it states, or which of the
spec's decisions and of the model's choices it rests on. -/

open Sys2Proof Sys2Proof.Machine

/-! Reset, the invariant, the step. -/

/-- `reset` (70_reset_and_hazards.md section 1, 10_state.md section 8) puts every component at its reset value, whatever
the state was, and leaves the parameters, the inputs and the ghost bit. Rests on D28, D29 (`key`, `run`, `err`,
`last_opcode`), D32 (ghost bit), and the model's own fields (log 3, log 4). -/
def Obligations.ResetLeavesTheSpecifiedState : Prop :=
  ∀ s, ∃ t, performHostOp .reset s = .next t ∧
    (∀ r, readV t r = 0) ∧ t.i = 0x200 ∧ t.pc = 0x200 ∧ t.sp = 0xEA0 ∧ t.dt = 0 ∧ t.st = 0 ∧
    (∀ k, keyPressed t k = false) ∧ t.run = .running ∧ (∀ x y, pixel t x y = false) ∧ t.err = .empty ∧
    t.lastOpcode = 0 ∧
    (∀ (d : Fin 16) (r : Fin 5), byteAt t (5 * d.val + r.val) = s.config.font[d][r]) ∧
    (∀ a, 0x50 ≤ a → a < 0x1000 → byteAt t a = 0) ∧
    t.config = s.config ∧ t.faulted = s.faulted ∧ t.pending = s.pending ∧ t.randoms = s.randoms ∧ t.draws = s.draws

/-- The state right after power-on meets the invariant. Rests on the defaults D2 and D3 (log 10, log 11). -/
def Obligations.ResetMeetsTheInvariant : Prop := State.reset.Inv

/-- From every state that meets the invariant, a step answers a next state, and that state meets it: memory canonical,
`I` of 12 bits, `SP` a slot boundary, `PC` and the saved `PC`s bounded, memory above the stack zero, the protected system
region as reset left it, the latch legal. Whatever the host has asked for next. Rests on the spec's decisions D2, D3, D4,
D8, D32, D45. -/
def Obligations.EveryStepKeepsTheInvariant : Prop :=
  ∀ s : State, s.Inv → ∃ t, step s = .next t ∧ t.Inv

/-- No step changes the parameters or `WRAP_Y` (10_state.md section 1, R41); that State carries them is the model's
choice (log 1). -/
def Obligations.NoStepChangesTheParameters : Prop :=
  ∀ s t : State, step s = .next t → t.config = s.config

/-- A step with nothing else asked for, running, runs the instruction the fetched word decodes to: `PC` has moved past
the word and `last_opcode` is the word (30_encoding.md sections 2 and 4). That a step is a tick then is the model's
choice (log 4). -/
def Obligations.StepRunsTheDecodedInstruction : Prop :=
  ∀ (s : State) (i : Instr), s.pending = [] → s.run = .running → s.pc.toNat + 1 < 0x1000 →
    decode (wordOfBytes (byteAt s s.pc.toNat) (byteAt s (s.pc.toNat + 1))) = .ok i →
    step s = exec i { s with
      pc := s.pc + 2, lastOpcode := wordOfBytes (byteAt s s.pc.toNat) (byteAt s (s.pc.toNat + 1)) }

/-- An invalid word raises `InvalidOpcode` with the word, and changes nothing but what fetch changed (30_encoding.md
section 3; the kept fetch advance is the spec's decision D34). -/
def Obligations.InvalidWordRaisesInvalidOpcode : Prop :=
  ∀ (s : State) (w : Word) (e : DecodeReject), s.pending = [] → s.run = .running → fetchedWord s = some w →
    decode w = .error e →
    ∃ t, step s = .next t ∧ Latched t 4 w 0 ∧ t.pc = s.pc + 2 ∧ t.lastOpcode = w ∧
      SameBut [.pc, .lastOpcode, .err, .faulted] s t

/-- A fetch at `PC >= 0xFFF` raises `UndefinedOperation`, reason 1, word `PC`, and changes nothing else (30_encoding.md
section 2; the spec's decision D7). -/
def Obligations.FetchPastMemoryRaises : Prop :=
  ∀ s : State, s.pending = [] → s.run = .running → 0xFFF ≤ s.pc.toNat →
    ∃ t, step s = .next t ∧ Latched t 7 s.pc 1 ∧ SameBut [.err, .faulted] s t

/-- While the core waits for a key, a tick changes nothing at all (30_encoding.md section 4). -/
def Obligations.TickWhileAwaitingKeyChangesNothing : Prop :=
  ∀ (s : State) (x : Nibble), s.run = .awaitingKey x →
    performHostOp .tick s = .next s ∧ (s.pending = [] → step s = .next s)

/-- A step performs the first host operation asked for, on the state without it (60_exceptions.md section 3); the list is
the model's own (log 4). -/
def Obligations.StepPerformsTheNextHostOperation : Prop :=
  ∀ (s : State) (op : HostOp) (rest : List HostOp), s.pending = op :: rest →
    step s = performHostOp op { s with pending := rest }

/-- `tick` does not look at `err`: from another latch the same tick leaves the same state, but for the latch, which holds
the fault just raised or, where none was, what it held (60_exceptions.md section 1, D17, D32). -/
def Obligations.TickDoesNotLookAtTheLatch : Prop :=
  ∀ (s t : State) (e : ErrLatch), tick s = .next t →
    ∃ u, tick { s with err := e } = .next u ∧ SameBut [.err] t u ∧
      (u.err = t.err ∨ (t.err = s.err ∧ u.err = e))

/-- What `tick` returns: `last_opcode` while waiting; the fault that fetch, decode or the handler raised; else the word
(30_encoding.md section 4). How the model tells that a fault was raised is its choice (log 26). -/
def Obligations.TickReturnsWordOrFault : Prop :=
  (∀ (s : State) (x : Nibble), s.run = .awaitingKey x → tickOutput s = .word s.lastOpcode) ∧
  (∀ s : State, s.run = .running → 0xFFF ≤ s.pc.toNat → tickOutput s = .fault 7) ∧
  (∀ (s : State) (w : Word) (e : DecodeReject), s.run = .running → fetchedWord s = some w → decode w = .error e →
    tickOutput s = .fault 4) ∧
  (∀ (s t : State) (w : Word) (i : Instr), s.run = .running → fetchedWord s = some w → decode w = .ok i →
    exec i (afterFetch (clearError s) w) = .next t →
    tickOutput s = if t.err.valid then .fault t.err.code else .word w)

/-! Encoding. -/

/-- Decoding the word of an instruction gives it back, for every instruction and every value of its fields. -/
def Obligations.DecodeOfEncodeIsTheInstruction : Prop :=
  ∀ i : Instr, i.wellFormed = true → decode (encode i) = .ok i

/-- Every word that decodes is the word of what it decodes to: no bit is dropped, `Y` of `SHR` and `SHL` included. -/
def Obligations.EncodeOfDecodeIsTheWord : Prop :=
  ∀ (w : Word) (i : Instr), decode w = .ok i → encode i = w

/-- The valid words of each family are the ones of the opcode map, and every other word is rejected by name with itself
(30_encoding.md section 5; the literal digits of families 0, 5 and 9 are the spec's decision D11). -/
def Obligations.WordsOutsideTheMapAreRejected : Prop :=
  ∀ w : Word,
    (let f := w.toNat / 4096
     let n := w.toNat % 16
     let nn := w.toNat % 256
     (w.toNat = 0x00E0 ∨ w.toNat = 0x00EE) ∨ f ∈ [1, 2, 3, 4, 6, 7, 0xA, 0xB, 0xC, 0xD] ∨ (f ∈ [5, 9] ∧ n = 0) ∨
       (f = 8 ∧ (n ≤ 7 ∨ n = 0xE)) ∨ (f = 0xE ∧ nn ∈ [0x9E, 0xA1]) ∨
       (f = 0xF ∧ nn ∈ [0x07, 0x0A, 0x15, 0x18, 0x1E, 0x29, 0x33, 0x55, 0x65]) → ∃ i, decode w = .ok i) ∧
    (let f := w.toNat / 4096
     let n := w.toNat % 16
     let nn := w.toNat % 256
     ¬ ((w.toNat = 0x00E0 ∨ w.toNat = 0x00EE) ∨ f ∈ [1, 2, 3, 4, 6, 7, 0xA, 0xB, 0xC, 0xD] ∨ (f ∈ [5, 9] ∧ n = 0) ∨
       (f = 8 ∧ (n ≤ 7 ∨ n = 0xE)) ∨ (f = 0xE ∧ nn ∈ [0x9E, 0xA1]) ∨
       (f = 0xF ∧ nn ∈ [0x07, 0x0A, 0x15, 0x18, 0x1E, 0x29, 0x33, 0x55, 0x65])) → decode w = .error (.invalidOpcode w))

/-- Words the spec writes out decode to the instructions it says (95_test_vectors.md L1, L2; a sanity check). -/
def Obligations.SpecWordsDecode : Prop :=
  decode 0x00EE = .ok .ret ∧ decode 0x2300 = .ok (.call 0x300) ∧ decode 0x3342 = .ok (.seVxNn 3 0x42) ∧
  decode 0x8124 = .ok (.addVxVy 1 2) ∧ decode 0xD012 = .ok (.drw 0 1 2) ∧ decode 0xF133 = .ok (.ldBVx 1) ∧
  decode 0xE29E = .ok (.skp 2) ∧ decode 0x01E0 = .error (.invalidOpcode 0x01E0) ∧
  decode 0x5121 = .error (.invalidOpcode 0x5121) ∧ decode 0xFFFF = .error (.invalidOpcode 0xFFFF)

/-! Flow control. -/

/-- The four skips: their words, and `PC` moves by 2 more exactly when the condition holds, and nothing else changes
(40_flow.md section 3, 30_encoding.md section 3; that `5XYN` and `9XYN` with another low digit are invalid is the spec's
decision D11, log 29). -/
def Obligations.SkipsMoveByOneInstruction : Prop :=
  ∀ (s : State) (x y : Nibble) (nn : Byte),
    ((∀ w, decode w = .ok (.seVxNn x nn) ↔ w = encodeR 3 x nn) ∧
      ∃ t, exec (.seVxNn x nn) s = .next t ∧ SameBut [.pc] s t ∧
        t.pc.toNat = if (readV s x).toNat = nn.toNat then (s.pc.toNat + 2) % 65536 else s.pc.toNat) ∧
    ((∀ w, decode w = .ok (.sneVxNn x nn) ↔ w = encodeR 4 x nn) ∧
      ∃ t, exec (.sneVxNn x nn) s = .next t ∧ SameBut [.pc] s t ∧
        t.pc.toNat = if (readV s x).toNat = nn.toNat then s.pc.toNat else (s.pc.toNat + 2) % 65536) ∧
    ((∀ w, decode w = .ok (.seVxVy x y) ↔ w = encodeRR 5 x y 0) ∧
      (∀ n, n ≠ 0 → decode (encodeRR 5 x y n) = .error (.invalidOpcode (encodeRR 5 x y n))) ∧
      ∃ t, exec (.seVxVy x y) s = .next t ∧ SameBut [.pc] s t ∧
        t.pc.toNat = if (readV s x).toNat = (readV s y).toNat then (s.pc.toNat + 2) % 65536 else s.pc.toNat) ∧
    ((∀ w, decode w = .ok (.sneVxVy x y) ↔ w = encodeRR 9 x y 0) ∧
      (∀ n, n ≠ 0 → decode (encodeRR 9 x y n) = .error (.invalidOpcode (encodeRR 9 x y n))) ∧
      ∃ t, exec (.sneVxVy x y) s = .next t ∧ SameBut [.pc] s t ∧
        t.pc.toNat = if (readV s x).toNat = (readV s y).toNat then s.pc.toNat else (s.pc.toNat + 2) % 65536)

/-- `JP` and `JP_V0` load a target up to `0xE9F`, the sum unwrapped, and change nothing else (40_flow.md sections 2 and 4;
the bound is the spec's decision D5). -/
def Obligations.JumpsLoadTheirTarget : Prop :=
  ∀ (s : State) (nnn : Addr),
    (nnn.toNat ≤ 0xE9F → ∃ t, exec (.jp nnn) s = .next t ∧ t.pc.toNat = nnn.toNat ∧ SameBut [.pc] s t) ∧
    (nnn.toNat + (readV s 0).toNat ≤ 0xE9F →
      ∃ t, exec (.jpV0 nnn) s = .next t ∧ t.pc.toNat = nnn.toNat + (readV s 0).toNat ∧ SameBut [.pc] s t)

/-- A target above `0xE9F` raises `RefusedMemoryAccess` with the opcode and leaves `PC`, `I`, `SP` and memory as they were:
`JP`, `JP_V0`, `LD_I_NNN`, and `CALL` where its stack is not full (the spec's decisions D5, D6; that the opcode is read
from `last_opcode` is the model's reading, log 7). -/
def Obligations.TargetsAboveTheBoundAreRefused : Prop :=
  ∀ (s : State) (nnn : Addr),
    (0xE9F < nnn.toNat →
      (∃ t, exec (.jp nnn) s = .next t ∧ Latched t 3 s.lastOpcode 0 ∧ SameBut [.err, .faulted] s t) ∧
      (∃ t, exec (.ldINnn nnn) s = .next t ∧ Latched t 3 s.lastOpcode 0 ∧ SameBut [.err, .faulted] s t) ∧
      (s.sp.toNat ≠ 0xEA0 + 2 * s.config.stackSlots →
        ∃ t, exec (.call nnn) s = .next t ∧ Latched t 3 s.lastOpcode 0 ∧ SameBut [.err, .faulted] s t)) ∧
    (0xE9F < nnn.toNat + (readV s 0).toNat →
      ∃ t, exec (.jpV0 nnn) s = .next t ∧ Latched t 3 s.lastOpcode 0 ∧ SameBut [.err, .faulted] s t)

/-- `CALL` stores the `PC` after fetch at `SP`, high byte first, moves `SP` up by 2 and loads the target (40_flow.md
section 2; the target check is the spec's decision D6). -/
def Obligations.CallPushesTheReturnAddress : Prop :=
  ∀ (s : State) (nnn : Addr), Memory.wf s.config s.mem → s.sp.toNat + 1 < 0x1000 →
    s.sp.toNat ≠ 0xEA0 + 2 * s.config.stackSlots → nnn.toNat ≤ 0xE9F →
    ∃ t, exec (.call nnn) s = .next t ∧ (byteAt t s.sp.toNat).toNat = s.pc.toNat / 256 ∧
      (byteAt t (s.sp.toNat + 1)).toNat = s.pc.toNat % 256 ∧ MemSameOutside s.sp.toNat 2 s t ∧
      Memory.wf t.config t.mem ∧ t.sp.toNat = s.sp.toNat + 2 ∧ t.pc.toNat = nnn.toNat ∧ SameBut [.mem, .sp, .pc] s t

/-- `CALL` with the stack full raises `StackOverflow` before it looks at its target, and pushes nothing (40_flow.md
section 2; the order is the spec's decision D6, the slot count D2, the word's source log 7). -/
def Obligations.CallOnAFullStackOverflows : Prop :=
  ∀ (s : State) (nnn : Addr), s.sp.toNat = 0xEA0 + 2 * s.config.stackSlots →
    ∃ t, exec (.call nnn) s = .next t ∧ Latched t 1 s.lastOpcode 0 ∧ SameBut [.err, .faulted] s t

/-- `RET`, whose word is exactly `0x00EE`, loads `PC` from the two bytes below `SP`, high byte first, and moves `SP` down by
2; memory keeps the slot. On an empty stack it raises `StackUnderflow` with the word `0x00EE` and changes nothing else but
the latch and the ghost bit (40_flow.md section 2; the one word is the spec's decision D11, the fault's number D18, both
log 29; the ghost bit D32, log 21). -/
def Obligations.ReturnPopsOrUnderflows : Prop :=
  ∀ s : State,
    (∀ w, decode w = .ok .ret ↔ w = 0x00EE) ∧
    (s.sp.toNat = 0xEA0 →
      ∃ t, exec .ret s = .next t ∧ Latched t 2 0x00EE 0 ∧ SameBut [.err, .faulted] s t) ∧
    (s.sp.toNat ≠ 0xEA0 → 2 ≤ s.sp.toNat → s.sp.toNat ≤ 0x1000 →
      ∃ t, exec .ret s = .next t ∧ t.sp.toNat = s.sp.toNat - 2 ∧
        t.pc.toNat = 256 * (byteAt s (s.sp.toNat - 2)).toNat + (byteAt s (s.sp.toNat - 1)).toNat ∧
        SameBut [.pc, .sp] s t)

/-- Where `SP` lies outside memory, which no run reaches, push and pop stop by name (the model's reading of 20_memory.md
section 2, log 5). -/
def Obligations.StackOutsideMemoryStops : Prop :=
  ∀ s : State,
    (s.sp.toNat < 2 ∨ 0x1000 < s.sp.toNat → exec .ret s = .fault .noSuchAddress) ∧
    (∀ nnn : Addr, 0xFFF ≤ s.sp.toNat → s.sp.toNat ≠ 0xEA0 + 2 * s.config.stackSlots → nnn.toNat ≤ 0xE9F →
      exec (.call nnn) s = .fault .noSuchAddress)

/-- A `CALL` is undone by a `RET` from any later state in which `SP` and the pushed slot are as the `CALL` left them: `PC`
and `SP` are what they were in the `CALL`'s handler (40_flow.md section 2, read as 90_conflicts.md C12 says). -/
def Obligations.ReturnUndoesCall : Prop :=
  ∀ (s : State) (nnn : Addr), Memory.wf s.config s.mem → s.config.wellFormed = true → s.spLegal →
    s.sp.toNat ≠ 0xEA0 + 2 * s.config.stackSlots → nnn.toNat ≤ 0xE9F →
    ∃ t, exec (.call nnn) s = .next t ∧
      ∀ u : State, u.sp = t.sp → byteAt u s.sp.toNat = byteAt t s.sp.toNat →
        byteAt u (s.sp.toNat + 1) = byteAt t (s.sp.toNat + 1) →
        ∃ w, exec .ret u = .next w ∧ w.pc = s.pc ∧ w.sp = s.sp

/-! Loads and the ALU. -/

/-- `LD_VX_NN`, `ADD_VX_NN` (modulo 256, no flag) and `LD_VX_VY`: their words, and they write `VX` and nothing else (R131,
R132, R133). -/
def Obligations.LoadsAndImmediateAddWriteVX : Prop :=
  ∀ (s : State) (x y : Nibble) (nn : Byte),
    ((∀ w, decode w = .ok (.ldVxNn x nn) ↔ w = encodeR 6 x nn) ∧
      ∃ t, exec (.ldVxNn x nn) s = .next t ∧ readV t x = nn ∧ RegsSameBut [x] s t ∧ SameBut [.v] s t) ∧
    ((∀ w, decode w = .ok (.addVxNn x nn) ↔ w = encodeR 7 x nn) ∧
      ∃ t, exec (.addVxNn x nn) s = .next t ∧ (readV t x).toNat = ((readV s x).toNat + nn.toNat) % 256 ∧
        RegsSameBut [x] s t ∧ SameBut [.v] s t) ∧
    ((∀ w, decode w = .ok (.ldVxVy x y) ↔ w = encodeRR 8 x y 0) ∧
      ∃ t, exec (.ldVxVy x y) s = .next t ∧ readV t x = readV s y ∧ RegsSameBut [x] s t ∧ SameBut [.v] s t)

/-- `OR`, `AND`, `XOR` work bit by bit on `VX` and write nothing else, `VF` neither unless it is `VX` (41_alu.md section 3;
the untouched `VF` is the spec's decision D12). -/
def Obligations.LogicWorksBitByBit : Prop :=
  ∀ (s : State) (x y : Nibble),
    (∃ t, exec (.or x y) s = .next t ∧ RegsSameBut [x] s t ∧ SameBut [.v] s t ∧
      ∀ k, k < 8 → (readV t x).getLsbD k = ((readV s x).getLsbD k || (readV s y).getLsbD k)) ∧
    (∃ t, exec (.and x y) s = .next t ∧ RegsSameBut [x] s t ∧ SameBut [.v] s t ∧
      ∀ k, k < 8 → (readV t x).getLsbD k = ((readV s x).getLsbD k && (readV s y).getLsbD k)) ∧
    (∃ t, exec (.xor x y) s = .next t ∧ RegsSameBut [x] s t ∧ SameBut [.v] s t ∧
      ∀ k, k < 8 → (readV t x).getLsbD k = ((readV s x).getLsbD k ^^ (readV s y).getLsbD k))

/-- `ADD_VX_VY`: the sum is `256 * VF + VX`, split between the two registers; where `X` is `F` the carry is what stays
(41_alu.md sections 1 and 4; the write order is the spec's decision D9). -/
def Obligations.AddSplitsTheSum : Prop :=
  ∀ (s : State) (x y : Nibble),
    ∃ t, exec (.addVxVy x y) s = .next t ∧
      (readV t 0xF).toNat = ((readV s x).toNat + (readV s y).toNat) / 256 ∧
      (x ≠ 0xF → 256 * (readV t 0xF).toNat + (readV t x).toNat = (readV s x).toNat + (readV s y).toNat) ∧
      RegsSameBut [x, 0xF] s t ∧ SameBut [.v] s t

/-- `SUB` and `SUBN`: the difference modulo 256 in `VX`, and in `VF` 1 exactly where nothing was borrowed; where `X` is `F`
the flag is what stays (41_alu.md sections 1 and 4, 90_conflicts.md C4; the write order is the spec's decision D9). -/
def Obligations.SubtractsSetNoBorrow : Prop :=
  ∀ (s : State) (x y : Nibble),
    (∃ t, exec (.sub x y) s = .next t ∧
      (readV t 0xF).toNat = (if (readV s y).toNat ≤ (readV s x).toNat then 1 else 0) ∧
      (x ≠ 0xF → ((readV t x).toNat : Int) = ((readV s x).toNat - (readV s y).toNat : Int) % 256) ∧
      RegsSameBut [x, 0xF] s t ∧ SameBut [.v] s t) ∧
    (∃ t, exec (.subn x y) s = .next t ∧
      (readV t 0xF).toNat = (if (readV s x).toNat ≤ (readV s y).toNat then 1 else 0) ∧
      (x ≠ 0xF → ((readV t x).toNat : Int) = ((readV s y).toNat - (readV s x).toNat : Int) % 256) ∧
      RegsSameBut [x, 0xF] s t ∧ SameBut [.v] s t)

/-- `SHR` and `SHL` halve and double `VX`, the bit moved out goes to `VF`, and `VY` plays no part; where `X` is `F` the flag
is what stays (41_alu.md sections 1 and 4; the write order is the spec's decision D9). -/
def Obligations.ShiftsMoveOneBitOut : Prop :=
  ∀ (s : State) (x y : Nibble),
    (∃ t, exec (.shr x y) s = .next t ∧ (readV t 0xF).toNat = (readV s x).toNat % 2 ∧
      (x ≠ 0xF → (readV t x).toNat = (readV s x).toNat / 2) ∧ RegsSameBut [x, 0xF] s t ∧ SameBut [.v] s t) ∧
    (∃ t, exec (.shl x y) s = .next t ∧ (readV t 0xF).toNat = (readV s x).toNat / 128 ∧
      (x ≠ 0xF → (readV t x).toNat = 2 * (readV s x).toNat % 256) ∧ RegsSameBut [x, 0xF] s t ∧ SameBut [.v] s t)

/-- `RND` masks the byte the outside supplies, whichever byte that is, and takes it: the next in the list, or the next free
value (41_alu.md section 5, 60_exceptions.md section 6; the spec's decision D21, the model's list and counter log 3). -/
def Obligations.RandomByteIsMaskedAndTaken : Prop :=
  ∀ (s : State) (x : Nibble) (nn : Byte),
    ∃ t, exec (.rnd x nn) s = .next t ∧ RegsSameBut [x] s t ∧ SameBut [.v, .random] s t ∧
      (∀ k, k < 8 → nn.getLsbD k = false → (readV t x).getLsbD k = false) ∧
      (∀ r rs, s.randoms = r :: rs → readV t x = r &&& nn ∧ t.randoms = rs ∧ t.draws = s.draws) ∧
      (s.randoms = [] → readV t x = Config.randomByte s.draws &&& nn ∧ t.randoms = [] ∧ t.draws = s.draws + 1)

/-! Index and memory. -/

/-- `LD_I_NNN` up to `0xE9F`, `ADD_I_VX` modulo 4096 with no flag, and `LD_F_VX` with the whole register times 5, write `I`
and nothing else (42_index_memory.md section 1; the spec's decisions D5, D35, D36). -/
def Obligations.IndexIsSetTo12Bits : Prop :=
  ∀ (s : State) (x : Nibble) (nnn : Addr),
    (nnn.toNat ≤ 0xE9F → ∃ t, exec (.ldINnn nnn) s = .next t ∧ t.i.toNat = nnn.toNat ∧ SameBut [.i] s t) ∧
    (∃ t, exec (.addIVx x) s = .next t ∧ t.i.toNat = (s.i.toNat + (readV s x).toNat) % 4096 ∧ SameBut [.i] s t) ∧
    (∃ t, exec (.ldFVx x) s = .next t ∧ t.i.toNat = 5 * (readV s x).toNat ∧ SameBut [.i] s t)

/-- `LD_B_VX`: three digits below 10 whose value is `VX`, hundreds first, at `I`, `I+1`, `I+2`; no other byte and no
register changes (42_index_memory.md section 2; which addresses are accepted is 20_memory.md section 2 with D4, D5). -/
def Obligations.DecimalDigitsAreStored : Prop :=
  ∀ (s : State) (x : Nibble), Memory.wf s.config s.mem → (∀ k, k < 3 → Writable s (effAddr s k)) →
    ∃ t, exec (.ldBVx x) s = .next t ∧
      100 * (byteAt t (effAddr s 0)).toNat + 10 * (byteAt t (effAddr s 1)).toNat + (byteAt t (effAddr s 2)).toNat =
        (readV s x).toNat ∧
      (byteAt t (effAddr s 0)).toNat < 10 ∧ (byteAt t (effAddr s 1)).toNat < 10 ∧
      (byteAt t (effAddr s 2)).toNat < 10 ∧
      MemSameOutside (effAddr s 0) 3 s t ∧ Memory.wf t.config t.mem ∧ SameBut [.mem] s t

/-- `LD_MEM_VX`: `V0..VX` at `I` on, in order; no other byte changes, `I` neither (42_index_memory.md section 2; the
spec's decision D13, addresses as above). -/
def Obligations.RegistersAreStored : Prop :=
  ∀ (s : State) (x : Nibble), Memory.wf s.config s.mem → (∀ k, k ≤ x.toNat → Writable s (effAddr s k)) →
    ∃ t, exec (.ldMemVx x) s = .next t ∧
      (∀ r : Nibble, r.toNat ≤ x.toNat → byteAt t (effAddr s r.toNat) = readV s r) ∧
      MemSameOutside (effAddr s 0) (x.toNat + 1) s t ∧ Memory.wf t.config t.mem ∧ SameBut [.mem] s t

/-- A store block whose address `I + j` is the first refused raises `RefusedMemoryAccess` with the opcode: the `j` bytes
before it are stored, and no other byte changes. `LD_MEM_VX` and `LD_B_VX` (20_memory.md section 2, R57; the refusals rest
on D4, D5, the word on log 7). -/
def Obligations.RefusedStoreKeepsEarlierBytes : Prop :=
  ∀ (s : State) (x : Nibble) (j : Nat), Memory.wf s.config s.mem → (∀ k, k < j → Writable s (effAddr s k)) →
    ¬ Writable s (effAddr s j) →
    (j ≤ x.toNat → ∃ t, exec (.ldMemVx x) s = .next t ∧
      (∀ r : Nibble, r.toNat < j → byteAt t (effAddr s r.toNat) = readV s r) ∧
      MemSameOutside (effAddr s 0) j s t ∧ Latched t 3 s.lastOpcode 0 ∧ SameBut [.mem, .err, .faulted] s t) ∧
    (j < 3 → ∃ t, exec (.ldBVx x) s = .next t ∧
      (0 < j → (byteAt t (effAddr s 0)).toNat = (readV s x).toNat / 100) ∧
      (1 < j → (byteAt t (effAddr s 1)).toNat = (readV s x).toNat / 10 % 10) ∧
      MemSameOutside (effAddr s 0) j s t ∧ Latched t 3 s.lastOpcode 0 ∧ SameBut [.mem, .err, .faulted] s t)

/-- `LD_VX_MEM`: `V0..VX` from `I` on, in order; no other register changes, `I` neither (42_index_memory.md section 2; the
spec's decisions D5, D13). -/
def Obligations.RegistersAreLoaded : Prop :=
  ∀ (s : State) (x : Nibble), effAddr s x.toNat ≤ 0xE9F →
    ∃ t, exec (.ldVxMem x) s = .next t ∧
      (∀ r : Nibble, readV t r = if r.toNat ≤ x.toNat then byteAt s (effAddr s r.toNat) else readV s r) ∧
      SameBut [.v] s t

/-- `LD_VX_MEM` whose address `I + j` is the first above `0xE9F` raises `RefusedMemoryAccess` with the opcode: `V0..V(j-1)`
are loaded, `Vj` on keep their values (the spec's decision D14; the word log 7). -/
def Obligations.RefusedLoadKeepsEarlierRegisters : Prop :=
  ∀ (s : State) (x : Nibble) (j : Nat), j ≤ x.toNat → (∀ k, k < j → effAddr s k ≤ 0xE9F) → 0xE9F < effAddr s j →
    ∃ t, exec (.ldVxMem x) s = .next t ∧
      (∀ r : Nibble, readV t r = if r.toNat < j then byteAt s (effAddr s r.toNat) else readV s r) ∧
      Latched t 3 s.lastOpcode 0 ∧ SameBut [.v, .err, .faulted] s t

/-- What `LD_MEM_VX` stored, `LD_VX_MEM` loads back, from any later state with the same `I` in which those bytes are as
they were stored, whatever the registers hold by then (42_index_memory.md section 2, read as 90_conflicts.md C13 says). -/
def Obligations.LoadRestoresWhatStoreSaved : Prop :=
  ∀ (s : State) (x : Nibble), Memory.wf s.config s.mem → (∀ k, k ≤ x.toNat → Writable s (effAddr s k)) →
    ∃ t, exec (.ldMemVx x) s = .next t ∧
      ∀ u : State, u.i = s.i → (∀ k, k ≤ x.toNat → byteAt u (effAddr s k) = byteAt t (effAddr s k)) →
        ∃ w, exec (.ldVxMem x) u = .next w ∧ ∀ r : Nibble, r.toNat ≤ x.toNat → readV w r = readV s r

/-! Display. -/

/-- `CLS`, whose word is exactly `0x00E0`, clears every pixel and changes nothing else (43_display.md section 1; the one word
is the spec's decision D11, log 29). -/
def Obligations.ClearScreenClearsEveryPixel : Prop :=
  (∀ w, decode w = .ok .cls ↔ w = 0x00E0) ∧
  ∀ s : State, ∃ t, exec .cls s = .next t ∧ (∀ x y, pixel t x y = false) ∧ SameBut [.fb] s t

/-- `DRW`, pixel by pixel: where no row that drawing comes to is refused, every pixel is its old value exclusive-or the
sprite's bit there (columns wrapped, rows wrapped or clipped by `WRAP_Y`), `VF` is 1 if some set bit met a set pixel and 0
if none did, and nothing else changes. `X` and `Y` may be `F` (43_display.md section 2; the spec's decisions D5, D10). -/
def Obligations.SpriteIsDrawnPixelByPixel : Prop :=
  ∀ (s : State) (x y n : Nibble),
    (∀ r, r < n.toNat → rowReached s (readV s y).toNat r → effAddr s r ≤ 0xE9F) →
    ∃ t, exec (.drw x y n) s = .next t ∧
      (∀ px py, pixel t px py =
        (pixel s px py ^^ spriteBit s (readV s x).toNat (readV s y).toNat n.toNat px py)) ∧
      ((∃ px py, pixel s px py = true ∧ spriteBit s (readV s x).toNat (readV s y).toNat n.toNat px py = true) →
        readV t 0xF = 1) ∧
      ((∀ px py, pixel s px py = true → spriteBit s (readV s x).toNat (readV s y).toNat n.toNat px py = false) →
        readV t 0xF = 0) ∧
      RegsSameBut [0xF] s t ∧ SameBut [.v, .fb] s t

/-- `DRW` whose row `q` is reached and is the first refused raises `RefusedMemoryAccess` with the opcode: the rows before
it stay drawn and `VF` tells of their collisions (43_display.md section 2; the spec's decision D5, the word log 7). -/
def Obligations.RefusedSpriteRowKeepsEarlierRows : Prop :=
  ∀ (s : State) (x y n : Nibble) (q : Nat), q < n.toNat → rowReached s (readV s y).toNat q →
    (∀ r, r < q → effAddr s r ≤ 0xE9F) → 0xE9F < effAddr s q →
    ∃ t, exec (.drw x y n) s = .next t ∧
      (∀ px py, pixel t px py = (pixel s px py ^^ spriteBit s (readV s x).toNat (readV s y).toNat q px py)) ∧
      ((∃ px py, pixel s px py = true ∧ spriteBit s (readV s x).toNat (readV s y).toNat q px py = true) →
        readV t 0xF = 1) ∧
      ((∀ px py, pixel s px py = true → spriteBit s (readV s x).toNat (readV s y).toNat q px py = false) →
        readV t 0xF = 0) ∧
      RegsSameBut [0xF] s t ∧ Latched t 3 s.lastOpcode 0 ∧ SameBut [.v, .fb, .err, .faulted] s t

/-- Drawing the same sprite twice restores every pixel, and the second draw reports a collision exactly where the first
touched a clear pixel (43_display.md section 2, R182 a and b, as 90_conflicts.md C8 restates it). -/
def Obligations.DrawingTwiceRestoresTheScreen : Prop :=
  ∀ (s : State) (x y n : Nibble), x ≠ 0xF → y ≠ 0xF →
    (∀ r, r < n.toNat → rowReached s (readV s y).toNat r → effAddr s r ≤ 0xE9F) →
    ∃ t u, exec (.drw x y n) s = .next t ∧ exec (.drw x y n) t = .next u ∧
      (∀ px py, pixel u px py = pixel s px py) ∧
      (readV u 0xF = 1 ↔
        ∃ px py, pixel s px py = false ∧ spriteBit s (readV s x).toNat (readV s y).toNat n.toNat px py = true)

/-! Keys and timers. -/

/-- `SKP` and `SKNP` skip by the state of the key `VX` names, and change nothing else (44_timers_input.md sections 1 and 2;
that only 0 to 15 name a key is the spec's decision D15). -/
def Obligations.KeySkipsFollowTheKey : Prop :=
  ∀ (s : State) (x k : Nibble), (readV s x).toNat = k.toNat →
    (∃ t, exec (.skp x) s = .next t ∧ SameBut [.pc] s t ∧
      t.pc.toNat = if keyPressed s k then (s.pc.toNat + 2) % 65536 else s.pc.toNat) ∧
    (∃ t, exec (.sknp x) s = .next t ∧ SameBut [.pc] s t ∧
      t.pc.toNat = if keyPressed s k then s.pc.toNat else (s.pc.toNat + 2) % 65536)

/-- `SKP` and `SKNP` with `VX` above 15 raise `UndefinedOperation`, reason 2, with the opcode, and do not skip (the spec's
decision D15; the word log 7). -/
def Obligations.KeyNumberAboveFifteenRaises : Prop :=
  ∀ (s : State) (x : Nibble), 15 < (readV s x).toNat →
    (∃ t, exec (.skp x) s = .next t ∧ Latched t 7 s.lastOpcode 2 ∧ SameBut [.err, .faulted] s t) ∧
    (∃ t, exec (.sknp x) s = .next t ∧ Latched t 7 s.lastOpcode 2 ∧ SameBut [.err, .faulted] s t)

/-- `LD_VX_DT`, `LD_DT_VX`, `LD_ST_VX` move a byte between `VX` and a timer and change nothing else (R203, R205, R206). -/
def Obligations.TimerTransfersMoveOneByte : Prop :=
  ∀ (s : State) (x : Nibble),
    (∃ t, exec (.ldVxDt x) s = .next t ∧ readV t x = s.dt ∧ RegsSameBut [x] s t ∧ SameBut [.v] s t) ∧
    (∃ t, exec (.ldDtVx x) s = .next t ∧ t.dt = readV s x ∧ SameBut [.dt] s t) ∧
    (∃ t, exec (.ldStVx x) s = .next t ∧ t.st = readV s x ∧ SameBut [.st] s t)

/-- `LD_VX_K` enters the wait for `VX` and changes nothing else, whatever keys are held (44_timers_input.md section 4; the
spec's decision D16). -/
def Obligations.KeyWaitIsEntered : Prop :=
  ∀ (s : State) (x : Nibble), ∃ t, exec (.ldVxK x) s = .next t ∧ t.run = .awaitingKey x ∧ SameBut [.run] s t

/-- `key_down(k)` presses key `k`; in a wait it also writes `k` to the waiting register and the core runs on, held key or
not; running, it changes nothing else (60_exceptions.md section 5; the spec's decision D16). -/
def Obligations.KeyDownPressesAndEndsTheWait : Prop :=
  ∀ (s : State) (k : Nibble),
    (s.run = .running → ∃ t, performHostOp (.keyDown k) s = .next t ∧ keyPressed t k = true ∧
      (∀ j, j ≠ k → keyPressed t j = keyPressed s j) ∧ SameBut [.keys] s t) ∧
    (∀ x, s.run = .awaitingKey x → ∃ t, performHostOp (.keyDown k) s = .next t ∧ keyPressed t k = true ∧
      (∀ j, j ≠ k → keyPressed t j = keyPressed s j) ∧ (readV t x).toNat = k.toNat ∧ RegsSameBut [x] s t ∧
      t.run = .running ∧ SameBut [.keys, .v, .run] s t)

/-- `key_up(k)` releases key `k` and changes nothing else (R242). -/
def Obligations.KeyUpReleasesOneKey : Prop :=
  ∀ (s : State) (k : Nibble), ∃ t, performHostOp (.keyUp k) s = .next t ∧ keyPressed t k = false ∧
    (∀ j, j ≠ k → keyPressed t j = keyPressed s j) ∧ SameBut [.keys] s t

/-- `decrement_timers` takes 1 from each timer that is not 0, and changes nothing else (R236). -/
def Obligations.StrobeCountsBothTimersDown : Prop :=
  ∀ s : State, ∃ t, performHostOp .decrementTimers s = .next t ∧ t.dt.toNat = s.dt.toNat - 1 ∧
    t.st.toNat = s.st.toNat - 1 ∧ SameBut [.dt, .st] s t

/-- Only a key-down or a reset ends a wait for a key (60_exceptions.md section 7); where the step comes from is the model's
list (log 4). -/
def Obligations.OnlyKeyDownOrResetEndsAWait : Prop :=
  ∀ (s t : State) (x : Nibble), s.run = .awaitingKey x → step s = .next t → t.run ≠ .awaitingKey x →
    ∃ rest, s.pending = .reset :: rest ∨ ∃ k, s.pending = .keyDown k :: rest

/-! The latch, the host's other operations. -/

/-- `clear_error` empties the latch and changes nothing else (R246). -/
def Obligations.ClearErrorEmptiesTheLatch : Prop :=
  ∀ s : State, ∃ t, performHostOp .clearError s = .next t ∧ t.err.valid = false ∧ t.err.code = 0 ∧ t.err.word = 0 ∧
    t.err.reason = 0 ∧ SameBut [.err] s t

/-- `load_program` of an image that fits copies its bytes to `0x200` on and changes nothing else, for every legal
`MAX_PROGRAM_SIZE` (70_reset_and_hazards.md section 1; the spec's decisions D3, D30). -/
def Obligations.LoadCopiesTheImage : Prop :=
  ∀ (s : State) (buf : List Byte), Memory.wf s.config s.mem → s.config.maxProgramSizeLegal = true →
    buf.length ≤ s.config.maxProgramSize →
    ∃ t, performHostOp (.loadProgram buf) s = .next t ∧
      (∀ k (h : k < buf.length), byteAt t (0x200 + k) = buf[k]) ∧ MemSameOutside 0x200 buf.length s t ∧
      Memory.wf t.config t.mem ∧ SameBut [.mem] s t

/-- `load_program` of a longer image raises `LoadBufferTooLarge`, word and reason 0, copies nothing, and returns the fault
(70_reset_and_hazards.md section 1; the limit is the spec's decision D3). -/
def Obligations.TooLargeAnImageIsRefused : Prop :=
  ∀ (s : State) (buf : List Byte), s.config.maxProgramSize < buf.length →
    hostOutput (.loadProgram buf) s = .fault 5 ∧
    ∃ t, performHostOp (.loadProgram buf) s = .next t ∧ Latched t 5 0 0 ∧ SameBut [.err, .faulted] s t

/-- The host's reads return the framebuffer, the sound timer and the latch, and change nothing (60_exceptions.md
section 6). -/
def Obligations.HostReadsChangeNothing : Prop :=
  ∀ s : State,
    (performHostOp .readPixels s = .next s ∧ hostOutput .readPixels s = .pixels s.fb) ∧
    (performHostOp .readSound s = .next s ∧ hostOutput .readSound s = .sound s.st) ∧
    (performHostOp .readError s = .next s ∧ hostOutput .readError s = .error s.err)

/-! Whole-machine rules. -/

/-- No instruction changes a component outside its footprint: pixels only under `CLS` and `DRW`, `I` only under its three
instructions, `SP` only under `CALL` and `RET`, memory only under the three that store, `run` only under `LD_VX_K`, the
latch only under those that can fault, the keys, `last_opcode`, the parameters and the host's list under none
(10_state.md sections 2 to 6, 20_memory.md section 2, 60_exceptions.md section 1). -/
def Obligations.InstructionsKeepToTheirFootprint : Prop :=
  ∀ (i : Instr) (s t : State), exec i s = .next t → SameBut (footprint i) s t

/-- No instruction writes a general register outside the table of 10_state.md section 2. -/
def Obligations.RegistersAreWrittenByTheTable : Prop :=
  ∀ (i : Instr) (s t : State), exec i s = .next t → ∀ r, mayWriteReg r i = false → readV t r = readV s r

/-- No instruction but `CALL` changes a byte above `0xE9F`, and no instruction but `CALL` changes a byte of the system region
while it is protected: the addresses the checked path refuses (20_memory.md sections 1 and 2; the spec's decisions D4,
D5, D45). What `CALL` stores is in the statements about `CALL`. -/
def Obligations.NoInstructionButCallWritesARefusedAddress : Prop :=
  ∀ (i : Instr) (s t : State), (∀ nnn, i ≠ .call nnn) → exec i s = .next t →
    (∀ a, 0xE9F < a → byteAt t a = byteAt s a) ∧
    (s.config.protectSystem = true → ∀ a, a < 0x200 → byteAt t a = byteAt s a)

/-- The ghost bit is set wherever a step puts a fault in the latch, and no step clears it, `clear_error` and `reset`
included (60_exceptions.md section 1, the spec's decision D32). -/
def Obligations.GhostBitIsNeverCleared : Prop :=
  ∀ s t : State, step s = .next t →
    (s.faulted = true → t.faulted = true) ∧ (t.err ≠ s.err → t.err.valid = true → t.faulted = true)

/-- No step latches `ClearScreenFailure` (43_display.md section 2, the spec's decision D20). -/
def Obligations.ClearScreenFailureIsNeverLatched : Prop :=
  ∀ s t : State, step s = .next t → t.err.code = faultNumber .clearScreenFailure →
    s.err.code = faultNumber .clearScreenFailure

/-- A parked machine stays parked: a tick changes nothing but `last_opcode`, which becomes the word fetched, the jump's
(70_reset_and_hazards.md section 5, 30_encoding.md section 2; parked is the spec's decision D32, and that the step is a
tick is the model's choice, log 4). -/
def Obligations.ParkedMachineStaysParked : Prop :=
  ∀ s : State, s.parked → s.pending = [] →
    ∃ t, step s = .next t ∧ t.parked ∧ fetchedWord s = some t.lastOpcode ∧ SameBut [.lastOpcode] s t

/-- A byte stored through the checked path is the one the next fetch of that address reads: no fence, no delay
(20_memory.md section 4, R67 as derived there). -/
def Obligations.StoredBytesAreFetched : Prop :=
  ∀ (s t : State) (a : Nat) (b : Byte), Memory.wf s.config s.mem → memWrite s a b = some t →
    t.pc.toNat + 1 < 0x1000 →
    ∃ w, fetchedWord t = some w ∧ (t.pc.toNat = a → highByte w = b) ∧ (t.pc.toNat + 1 = a → lowByte w = b)

/-- The checked path: a read above `0xE9F` is refused and no other; a write is refused above `0xE9F`, and below `0x200`
while the system region is protected; what is written is read back, every other byte is as it was, and the canonical form
is kept (20_memory.md section 2, R64; D4, D5). -/
def Obligations.CheckedPathReadsWhatItWrote : Prop :=
  ∀ (s : State) (a : Nat) (b : Byte), Memory.wf s.config s.mem →
    (memRead s a = none ↔ 0xE9F < a) ∧
    (memWrite s a b = none ↔ 0xE9F < a ∨ (s.config.protectSystem = true ∧ a < 0x200)) ∧
    (∀ t, memWrite s a b = some t → memRead t a = some b ∧ MemSameOutside a 1 s t ∧ Memory.wf t.config t.mem ∧
      SameBut [.mem] s t)
end

