-- ==== Sys2Proof/Laws/Decode.lean ====
section
/-! SUPPORT. The fields of an assembled word are what it was assembled from, and a word is assembled from its fields
(R84, R85). -/

namespace Sys2Proof

/-! A word and its fields as numbers. -/

theorem toNat_append' {m n : Nat} (a : BitVec m) (b : BitVec n) : (a ++ b).toNat = a.toNat * 2 ^ n + b.toNat := by
  rw [BitVec.toNat_append, ← Nat.shiftLeft_add_eq_or_of_lt b.isLt, Nat.shiftLeft_eq]

theorem toNat_encodeR (f x : Nibble) (nn : Byte) :
    (encodeR f x nn).toNat = (f.toNat * 16 + x.toNat) * 256 + nn.toNat := by
  have h1 := toNat_append' (f ++ x) nn
  have h2 := toNat_append' f x
  rw [h2] at h1
  exact h1

theorem toNat_encodeRR (f x y n : Nibble) :
    (encodeRR f x y n).toNat = (f.toNat * 16 + x.toNat) * 256 + (y.toNat * 16 + n.toNat) := by
  have h1 := toNat_append' (f ++ x) (y ++ n)
  have h2 := toNat_append' f x
  have h3 := toNat_append' y n
  rw [h2, h3] at h1
  exact h1

theorem toNat_encodeA (f : Nibble) (nnn : Addr) : (encodeA f nnn).toNat = f.toNat * 4096 + nnn.toNat :=
  toNat_append' f nnn

theorem toNat_fieldF (w : Word) : (fieldF w).toNat = w.toNat / 4096 % 16 := by
  simp [fieldF, Nat.shiftRight_eq_div_pow]

theorem toNat_fieldX (w : Word) : (fieldX w).toNat = w.toNat / 256 % 16 := by
  simp [fieldX, Nat.shiftRight_eq_div_pow]

theorem toNat_fieldY (w : Word) : (fieldY w).toNat = w.toNat / 16 % 16 := by
  simp [fieldY, Nat.shiftRight_eq_div_pow]

theorem toNat_fieldN (w : Word) : (fieldN w).toNat = w.toNat % 16 := by simp [fieldN]

theorem toNat_fieldNN (w : Word) : (fieldNN w).toNat = w.toNat % 256 := by simp [fieldNN]

theorem toNat_fieldNNN (w : Word) : (fieldNNN w).toNat = w.toNat % 4096 := by simp [fieldNNN]

/-! The fields of an assembled word. -/

section Fields

variable (f x y n : Nibble) (nn : Byte) (nnn : Addr)

@[simp] theorem fieldF_encodeR : fieldF (encodeR f x nn) = f := by
  apply BitVec.eq_of_toNat_eq; rw [toNat_fieldF, toNat_encodeR]; omega

@[simp] theorem fieldX_encodeR : fieldX (encodeR f x nn) = x := by
  apply BitVec.eq_of_toNat_eq; rw [toNat_fieldX, toNat_encodeR]; omega

@[simp] theorem fieldNN_encodeR : fieldNN (encodeR f x nn) = nn := by
  apply BitVec.eq_of_toNat_eq; rw [toNat_fieldNN, toNat_encodeR]; omega

@[simp] theorem fieldF_encodeRR : fieldF (encodeRR f x y n) = f := by
  apply BitVec.eq_of_toNat_eq; rw [toNat_fieldF, toNat_encodeRR]; omega

@[simp] theorem fieldX_encodeRR : fieldX (encodeRR f x y n) = x := by
  apply BitVec.eq_of_toNat_eq; rw [toNat_fieldX, toNat_encodeRR]; omega

@[simp] theorem fieldY_encodeRR : fieldY (encodeRR f x y n) = y := by
  apply BitVec.eq_of_toNat_eq; rw [toNat_fieldY, toNat_encodeRR]; omega

@[simp] theorem fieldN_encodeRR : fieldN (encodeRR f x y n) = n := by
  apply BitVec.eq_of_toNat_eq; rw [toNat_fieldN, toNat_encodeRR]; omega

@[simp] theorem fieldF_encodeA : fieldF (encodeA f nnn) = f := by
  apply BitVec.eq_of_toNat_eq; rw [toNat_fieldF, toNat_encodeA]; omega

@[simp] theorem fieldNNN_encodeA : fieldNNN (encodeA f nnn) = nnn := by
  apply BitVec.eq_of_toNat_eq; rw [toNat_fieldNNN, toNat_encodeA]; omega

end Fields

/-! A word assembled from its own fields. -/

theorem encodeR_fields (w : Word) : encodeR (fieldF w) (fieldX w) (fieldNN w) = w := by
  apply BitVec.eq_of_toNat_eq
  rw [toNat_encodeR, toNat_fieldF, toNat_fieldX, toNat_fieldNN]; omega

theorem encodeRR_fields (w : Word) : encodeRR (fieldF w) (fieldX w) (fieldY w) (fieldN w) = w := by
  apply BitVec.eq_of_toNat_eq
  rw [toNat_encodeRR, toNat_fieldF, toNat_fieldX, toNat_fieldY, toNat_fieldN]; omega

theorem encodeA_fields (w : Word) : encodeA (fieldF w) (fieldNNN w) = w := by
  apply BitVec.eq_of_toNat_eq
  rw [toNat_encodeA, toNat_fieldF, toNat_fieldNNN]; omega

/-- A field is the literal it is compared with. -/
theorem eq_ofNat_of_toNat {k : Nat} {b : BitVec k} {m : Nat} (h : b.toNat = m) : b = BitVec.ofNat k m := by
  subst h; simp

end Sys2Proof
end

