-- ==== Sys2Proof/Laws/Memory.lean ====
section
/-! SUPPORT. The laws of memory: read after write, the canonical form kept, equal memories are equal lists. -/

namespace Sys2Proof.Machine

/-- A head cell whose address is not asked for is passed over. -/
theorem Memory.read_cons_ne {c : Config} {p : Host.Cell} {m : List Host.Cell} {a : Nat} (h : p.1 ≠ a) :
    Memory.read c (p :: m) a = Memory.read c m a := by
  obtain ⟨b, w⟩ := p
  simp only [Memory.read]
  exact if_neg h

/-- An address no cell names reads as the reset image. -/
theorem Memory.read_of_absent {c : Config} {m : List Host.Cell} {a : Nat} (h : ∀ p ∈ m, p.1 ≠ a) :
    Memory.read c m a = resetByte c a := by
  induction m with
  | nil => rfl
  | cons p m ih =>
    rw [Memory.read_cons_ne (h p (by simp))]
    exact ih fun q hq => h q (by simp [hq])

/-- The cell of a rising list is what its address reads as. -/
theorem Memory.read_of_mem {c : Config} {m : List Host.Cell} (hm : m.Pairwise (fun p q => p.1 < q.1)) {a : Nat}
    {w : Byte} (h : (a, w) ∈ m) : Memory.read c m a = w := by
  induction m with
  | nil => simp at h
  | cons p m ih =>
    rw [List.pairwise_cons] at hm
    rcases List.mem_cons.mp h with rfl | h
    · simp [Memory.read]
    · rw [Memory.read_cons_ne (Nat.ne_of_lt (hm.1 _ h))]
      exact ih hm.2 h

/-- A write leaves every other address alone. -/
theorem Memory.read_write_other (c : Config) (m : List Host.Cell) {a b : Nat} (v : Byte) (h : b ≠ a) :
    Memory.read c (Memory.write c m a v) b = Memory.read c m b := by
  induction m with
  | nil =>
    simp only [Memory.write]
    split
    · rfl
    · exact Memory.read_cons_ne (Ne.symm h)
  | cons p m ih =>
    obtain ⟨d, w⟩ := p
    simp only [Memory.write]
    split
    · split
      · rfl
      · exact Memory.read_cons_ne (Ne.symm h)
    · split
      · next hd =>
        subst hd
        rw [Memory.read_cons_ne (c := c) (p := (a, w)) (m := m) (Ne.symm h)]
        split
        · rfl
        · exact Memory.read_cons_ne (Ne.symm h)
      · simp only [Memory.read, ih]

/-- Every cell of a written memory is the new one or an old one with another address. -/
theorem Memory.mem_write {c : Config} {m : List Host.Cell} (hm : m.Pairwise (fun p q => p.1 < q.1)) {a : Nat} {v : Byte}
    {p : Host.Cell} (h : p ∈ Memory.write c m a v) :
    (p = (a, v) ∧ v ≠ resetByte c a) ∨ (p ∈ m ∧ p.1 ≠ a) := by
  induction m with
  | nil =>
    simp only [Memory.write] at h
    split at h
    · simp at h
    · simp_all
  | cons q m ih =>
    obtain ⟨d, w⟩ := q
    rw [List.pairwise_cons] at hm
    simp only [Memory.write] at h
    split at h
    · next had =>
      have old : p ∈ (d, w) :: m → p ∈ (d, w) :: m ∧ p.1 ≠ a := fun hp => ⟨hp, by
        rcases List.mem_cons.mp hp with rfl | hp
        · exact Nat.ne_of_gt had
        · exact Nat.ne_of_gt (Nat.lt_trans had (hm.1 p hp))⟩
      split at h
      · exact .inr (old h)
      · rcases List.mem_cons.mp h with rfl | h
        · exact .inl ⟨rfl, ‹_›⟩
        · exact .inr (old h)
    · split at h
      · next hd =>
        subst hd
        have old : p ∈ m → p ∈ (a, w) :: m ∧ p.1 ≠ a :=
          fun hp => ⟨List.mem_cons_of_mem _ hp, Nat.ne_of_gt (hm.1 p hp)⟩
        split at h
        · exact .inr (old h)
        · rcases List.mem_cons.mp h with rfl | h
          · exact .inl ⟨rfl, ‹_›⟩
          · exact .inr (old h)
      · next had hd =>
        rcases List.mem_cons.mp h with rfl | h
        · exact .inr ⟨by simp, Ne.symm hd⟩
        · rcases ih hm.2 h with h | ⟨h, hne⟩
          · exact .inl h
          · exact .inr ⟨List.mem_cons_of_mem _ h, hne⟩

/-- A write keeps the addresses rising. -/
theorem Memory.write_pairwise {c : Config} {m : List Host.Cell} (hm : m.Pairwise (fun p q => p.1 < q.1)) (a : Nat)
    (v : Byte) : (Memory.write c m a v).Pairwise (fun p q => p.1 < q.1) := by
  induction m with
  | nil => simp only [Memory.write]; split <;> simp
  | cons q m ih =>
    obtain ⟨d, w⟩ := q
    have hm' := List.pairwise_cons.mp hm
    simp only [Memory.write]
    split
    · next had =>
      split
      · exact hm
      · refine List.pairwise_cons.mpr ⟨fun p hp => ?_, hm⟩
        rcases List.mem_cons.mp hp with rfl | hp
        · exact had
        · exact Nat.lt_trans had (hm'.1 p hp)
    · split
      · next hd =>
        subst hd
        split
        · exact hm'.2
        · exact List.pairwise_cons.mpr ⟨hm'.1, hm'.2⟩
      · next had hd =>
        refine List.pairwise_cons.mpr ⟨fun p hp => ?_, ih hm'.2⟩
        rcases Memory.mem_write hm'.2 hp with ⟨rfl, -⟩ | ⟨hp, -⟩
        · show d < a
          omega
        · exact hm'.1 p hp

/-- A write inside memory keeps the canonical form. -/
theorem Memory.write_wf {c : Config} {m : List Host.Cell} (hm : Memory.wf c m) {a : Nat} (ha : a < memSize) (v : Byte) :
    Memory.wf c (Memory.write c m a v) := by
  refine ⟨Memory.write_pairwise hm.1 a v, fun p hp => ?_⟩
  rcases Memory.mem_write hm.1 hp with ⟨rfl, h⟩ | ⟨h, -⟩
  · exact ⟨ha, h⟩
  · exact hm.2 p h

/-- A read after a write to the same address gives the value written. -/
theorem Memory.read_write_same {c : Config} {m : List Host.Cell} (hm : Memory.wf c m) (a : Nat) (v : Byte) :
    Memory.read c (Memory.write c m a v) a = v := by
  obtain ⟨hp, -⟩ := hm
  induction m with
  | nil =>
    simp only [Memory.write]
    split
    · next h => simp [Memory.read, h]
    · simp [Memory.read]
  | cons q m ih =>
    obtain ⟨d, w⟩ := q
    have hp' := List.pairwise_cons.mp hp
    simp only [Memory.write]
    split
    · next had =>
      split
      · next hv =>
        rw [Memory.read_of_absent, hv]
        intro p hp
        rcases List.mem_cons.mp hp with rfl | hp
        · exact Nat.ne_of_gt had
        · exact Nat.ne_of_gt (Nat.lt_trans had (hp'.1 p hp))
      · simp [Memory.read]
    · split
      · next hd =>
        subst hd
        split
        · next hv =>
          rw [Memory.read_of_absent, hv]
          exact fun p hp => Nat.ne_of_gt (hp'.1 p hp)
        · simp [Memory.read]
      · next had hd =>
        rw [Memory.read_cons_ne (fun h => hd h.symm)]
        exact ih hp'.2

/-- An empty list is in canonical form. -/
theorem Memory.nil_wf (c : Config) : Memory.wf c [] := ⟨List.Pairwise.nil, by simp⟩

/-- The tail of a canonical memory is canonical. -/
theorem Memory.wf_tail {c : Config} {p : Host.Cell} {m : List Host.Cell} (h : Memory.wf c (p :: m)) : Memory.wf c m :=
  ⟨(List.pairwise_cons.mp h.1).2, fun q hq => h.2 q (by simp [hq])⟩

/-- Two canonical memories that read alike everywhere are the same list: equal memories are equal data. -/
theorem Memory.wf_ext {c : Config} {m n : List Host.Cell} (hm : Memory.wf c m) (hn : Memory.wf c n)
    (h : ∀ a, Memory.read c m a = Memory.read c n a) : m = n := by
  have sub : ∀ {m n : List Host.Cell}, Memory.wf c m → Memory.wf c n →
      (∀ a, Memory.read c m a = Memory.read c n a) → ∀ p ∈ m, p ∈ n := by
    intro m n hm hn h p hp
    obtain ⟨a, w⟩ := p
    have hw := Memory.read_of_mem (c := c) hm.1 hp
    by_contra hno
    have habs : Memory.read c n a = resetByte c a ∨ ∃ w', (a, w') ∈ n := by
      by_cases hex : ∃ w', (a, w') ∈ n
      · exact .inr hex
      · refine .inl (Memory.read_of_absent fun q hq hqa => hex ⟨q.2, ?_⟩)
        rw [← hqa]; exact hq
    rcases habs with habs | ⟨w', hw'⟩
    · exact (hm.2 _ hp).2 (by rw [← hw, h a, habs])
    · have := Memory.read_of_mem (c := c) hn.1 hw'
      rw [← h a, hw] at this
      exact hno (this ▸ hw')
  have lt_asymm : ∀ p q : Host.Cell, p ∈ m → q ∈ n → p.1 < q.1 → q.1 < p.1 → p = q :=
    fun p q _ _ h1 h2 => absurd (Nat.lt_trans h1 h2) (Nat.lt_irrefl _)
  have nd : ∀ {l : List Host.Cell}, l.Pairwise (fun p q => p.1 < q.1) → l.Nodup := fun hl =>
    hl.imp fun hlt heq => absurd (heq ▸ hlt) (Nat.lt_irrefl _)
  have perm : m.Perm n := (List.perm_ext_iff_of_nodup (nd hm.1) (nd hn.1)).mpr fun p =>
    ⟨sub hm hn h p, sub hn hm (fun a => (h a).symm) p⟩
  exact List.Perm.eq_of_pairwise lt_asymm hm.1 hn.1 perm

end Sys2Proof.Machine
end

