-- ==== Sys2Proof/Laws/State.lean ====
section
/-! SUPPORT. Beside State: what each update of the state leaves in each field, every line true by unfolding. -/

namespace Sys2Proof.Machine

/-! `writeV` -/

@[simp] theorem writeV_mem (s : State) (x : Nibble) (b : Byte) : (writeV s x b).mem = s.mem := rfl
@[simp] theorem writeV_i (s : State) (x : Nibble) (b : Byte) : (writeV s x b).i = s.i := rfl
@[simp] theorem writeV_pc (s : State) (x : Nibble) (b : Byte) : (writeV s x b).pc = s.pc := rfl
@[simp] theorem writeV_sp (s : State) (x : Nibble) (b : Byte) : (writeV s x b).sp = s.sp := rfl
@[simp] theorem writeV_dt (s : State) (x : Nibble) (b : Byte) : (writeV s x b).dt = s.dt := rfl
@[simp] theorem writeV_st (s : State) (x : Nibble) (b : Byte) : (writeV s x b).st = s.st := rfl
@[simp] theorem writeV_keys (s : State) (x : Nibble) (b : Byte) : (writeV s x b).keys = s.keys := rfl
@[simp] theorem writeV_run (s : State) (x : Nibble) (b : Byte) : (writeV s x b).run = s.run := rfl
@[simp] theorem writeV_fb (s : State) (x : Nibble) (b : Byte) : (writeV s x b).fb = s.fb := rfl
@[simp] theorem writeV_err (s : State) (x : Nibble) (b : Byte) : (writeV s x b).err = s.err := rfl
@[simp] theorem writeV_lastOpcode (s : State) (x : Nibble) (b : Byte) : (writeV s x b).lastOpcode = s.lastOpcode := rfl
@[simp] theorem writeV_faulted (s : State) (x : Nibble) (b : Byte) : (writeV s x b).faulted = s.faulted := rfl
@[simp] theorem writeV_config (s : State) (x : Nibble) (b : Byte) : (writeV s x b).config = s.config := rfl
@[simp] theorem writeV_pending (s : State) (x : Nibble) (b : Byte) : (writeV s x b).pending = s.pending := rfl
@[simp] theorem writeV_randoms (s : State) (x : Nibble) (b : Byte) : (writeV s x b).randoms = s.randoms := rfl
@[simp] theorem writeV_draws (s : State) (x : Nibble) (b : Byte) : (writeV s x b).draws = s.draws := rfl

/-! `writeI` -/

@[simp] theorem writeI_mem (s : State) (w : Word) : (writeI s w).mem = s.mem := rfl
@[simp] theorem writeI_v (s : State) (w : Word) : (writeI s w).v = s.v := rfl
@[simp] theorem writeI_i (s : State) (w : Word) : (writeI s w).i = w &&& 0x0FFF#16 := rfl
@[simp] theorem writeI_pc (s : State) (w : Word) : (writeI s w).pc = s.pc := rfl
@[simp] theorem writeI_sp (s : State) (w : Word) : (writeI s w).sp = s.sp := rfl
@[simp] theorem writeI_dt (s : State) (w : Word) : (writeI s w).dt = s.dt := rfl
@[simp] theorem writeI_st (s : State) (w : Word) : (writeI s w).st = s.st := rfl
@[simp] theorem writeI_keys (s : State) (w : Word) : (writeI s w).keys = s.keys := rfl
@[simp] theorem writeI_run (s : State) (w : Word) : (writeI s w).run = s.run := rfl
@[simp] theorem writeI_fb (s : State) (w : Word) : (writeI s w).fb = s.fb := rfl
@[simp] theorem writeI_err (s : State) (w : Word) : (writeI s w).err = s.err := rfl
@[simp] theorem writeI_lastOpcode (s : State) (w : Word) : (writeI s w).lastOpcode = s.lastOpcode := rfl
@[simp] theorem writeI_faulted (s : State) (w : Word) : (writeI s w).faulted = s.faulted := rfl
@[simp] theorem writeI_config (s : State) (w : Word) : (writeI s w).config = s.config := rfl
@[simp] theorem writeI_pending (s : State) (w : Word) : (writeI s w).pending = s.pending := rfl
@[simp] theorem writeI_randoms (s : State) (w : Word) : (writeI s w).randoms = s.randoms := rfl
@[simp] theorem writeI_draws (s : State) (w : Word) : (writeI s w).draws = s.draws := rfl

/-! `writePC` -/

@[simp] theorem writePC_mem (s : State) (w : Word) : (writePC s w).mem = s.mem := rfl
@[simp] theorem writePC_v (s : State) (w : Word) : (writePC s w).v = s.v := rfl
@[simp] theorem writePC_i (s : State) (w : Word) : (writePC s w).i = s.i := rfl
@[simp] theorem writePC_pc (s : State) (w : Word) : (writePC s w).pc = w := rfl
@[simp] theorem writePC_sp (s : State) (w : Word) : (writePC s w).sp = s.sp := rfl
@[simp] theorem writePC_dt (s : State) (w : Word) : (writePC s w).dt = s.dt := rfl
@[simp] theorem writePC_st (s : State) (w : Word) : (writePC s w).st = s.st := rfl
@[simp] theorem writePC_keys (s : State) (w : Word) : (writePC s w).keys = s.keys := rfl
@[simp] theorem writePC_run (s : State) (w : Word) : (writePC s w).run = s.run := rfl
@[simp] theorem writePC_fb (s : State) (w : Word) : (writePC s w).fb = s.fb := rfl
@[simp] theorem writePC_err (s : State) (w : Word) : (writePC s w).err = s.err := rfl
@[simp] theorem writePC_lastOpcode (s : State) (w : Word) : (writePC s w).lastOpcode = s.lastOpcode := rfl
@[simp] theorem writePC_faulted (s : State) (w : Word) : (writePC s w).faulted = s.faulted := rfl
@[simp] theorem writePC_config (s : State) (w : Word) : (writePC s w).config = s.config := rfl
@[simp] theorem writePC_pending (s : State) (w : Word) : (writePC s w).pending = s.pending := rfl
@[simp] theorem writePC_randoms (s : State) (w : Word) : (writePC s w).randoms = s.randoms := rfl
@[simp] theorem writePC_draws (s : State) (w : Word) : (writePC s w).draws = s.draws := rfl

/-! `skipNext` -/

@[simp] theorem skipNext_mem (s : State) : (skipNext s).mem = s.mem := rfl
@[simp] theorem skipNext_v (s : State) : (skipNext s).v = s.v := rfl
@[simp] theorem skipNext_i (s : State) : (skipNext s).i = s.i := rfl
@[simp] theorem skipNext_pc (s : State) : (skipNext s).pc = s.pc + 2 := rfl
@[simp] theorem skipNext_sp (s : State) : (skipNext s).sp = s.sp := rfl
@[simp] theorem skipNext_dt (s : State) : (skipNext s).dt = s.dt := rfl
@[simp] theorem skipNext_st (s : State) : (skipNext s).st = s.st := rfl
@[simp] theorem skipNext_keys (s : State) : (skipNext s).keys = s.keys := rfl
@[simp] theorem skipNext_run (s : State) : (skipNext s).run = s.run := rfl
@[simp] theorem skipNext_fb (s : State) : (skipNext s).fb = s.fb := rfl
@[simp] theorem skipNext_err (s : State) : (skipNext s).err = s.err := rfl
@[simp] theorem skipNext_lastOpcode (s : State) : (skipNext s).lastOpcode = s.lastOpcode := rfl
@[simp] theorem skipNext_faulted (s : State) : (skipNext s).faulted = s.faulted := rfl
@[simp] theorem skipNext_config (s : State) : (skipNext s).config = s.config := rfl
@[simp] theorem skipNext_pending (s : State) : (skipNext s).pending = s.pending := rfl
@[simp] theorem skipNext_randoms (s : State) : (skipNext s).randoms = s.randoms := rfl
@[simp] theorem skipNext_draws (s : State) : (skipNext s).draws = s.draws := rfl

/-! `setByte` -/

@[simp] theorem setByte_v (s : State) (a : Nat) (b : Byte) : (setByte s a b).v = s.v := rfl
@[simp] theorem setByte_i (s : State) (a : Nat) (b : Byte) : (setByte s a b).i = s.i := rfl
@[simp] theorem setByte_pc (s : State) (a : Nat) (b : Byte) : (setByte s a b).pc = s.pc := rfl
@[simp] theorem setByte_sp (s : State) (a : Nat) (b : Byte) : (setByte s a b).sp = s.sp := rfl
@[simp] theorem setByte_dt (s : State) (a : Nat) (b : Byte) : (setByte s a b).dt = s.dt := rfl
@[simp] theorem setByte_st (s : State) (a : Nat) (b : Byte) : (setByte s a b).st = s.st := rfl
@[simp] theorem setByte_keys (s : State) (a : Nat) (b : Byte) : (setByte s a b).keys = s.keys := rfl
@[simp] theorem setByte_run (s : State) (a : Nat) (b : Byte) : (setByte s a b).run = s.run := rfl
@[simp] theorem setByte_fb (s : State) (a : Nat) (b : Byte) : (setByte s a b).fb = s.fb := rfl
@[simp] theorem setByte_err (s : State) (a : Nat) (b : Byte) : (setByte s a b).err = s.err := rfl
@[simp] theorem setByte_lastOpcode (s : State) (a : Nat) (b : Byte) : (setByte s a b).lastOpcode = s.lastOpcode := rfl
@[simp] theorem setByte_faulted (s : State) (a : Nat) (b : Byte) : (setByte s a b).faulted = s.faulted := rfl
@[simp] theorem setByte_config (s : State) (a : Nat) (b : Byte) : (setByte s a b).config = s.config := rfl
@[simp] theorem setByte_pending (s : State) (a : Nat) (b : Byte) : (setByte s a b).pending = s.pending := rfl
@[simp] theorem setByte_randoms (s : State) (a : Nat) (b : Byte) : (setByte s a b).randoms = s.randoms := rfl
@[simp] theorem setByte_draws (s : State) (a : Nat) (b : Byte) : (setByte s a b).draws = s.draws := rfl

/-! `raise` -/

@[simp] theorem raise_mem (s : State) (f : FaultCode) (r : Byte) (w : Word) : (raise s f r w).mem = s.mem := rfl
@[simp] theorem raise_v (s : State) (f : FaultCode) (r : Byte) (w : Word) : (raise s f r w).v = s.v := rfl
@[simp] theorem raise_i (s : State) (f : FaultCode) (r : Byte) (w : Word) : (raise s f r w).i = s.i := rfl
@[simp] theorem raise_pc (s : State) (f : FaultCode) (r : Byte) (w : Word) : (raise s f r w).pc = s.pc := rfl
@[simp] theorem raise_sp (s : State) (f : FaultCode) (r : Byte) (w : Word) : (raise s f r w).sp = s.sp := rfl
@[simp] theorem raise_dt (s : State) (f : FaultCode) (r : Byte) (w : Word) : (raise s f r w).dt = s.dt := rfl
@[simp] theorem raise_st (s : State) (f : FaultCode) (r : Byte) (w : Word) : (raise s f r w).st = s.st := rfl
@[simp] theorem raise_keys (s : State) (f : FaultCode) (r : Byte) (w : Word) : (raise s f r w).keys = s.keys := rfl
@[simp] theorem raise_run (s : State) (f : FaultCode) (r : Byte) (w : Word) : (raise s f r w).run = s.run := rfl
@[simp] theorem raise_fb (s : State) (f : FaultCode) (r : Byte) (w : Word) : (raise s f r w).fb = s.fb := rfl
@[simp] theorem raise_err (s : State) (f : FaultCode) (r : Byte) (w : Word) : (raise s f r w).err = ⟨true, faultNumber f, w, r⟩ := rfl
@[simp] theorem raise_lastOpcode (s : State) (f : FaultCode) (r : Byte) (w : Word) : (raise s f r w).lastOpcode = s.lastOpcode := rfl
@[simp] theorem raise_faulted (s : State) (f : FaultCode) (r : Byte) (w : Word) : (raise s f r w).faulted = true := rfl
@[simp] theorem raise_config (s : State) (f : FaultCode) (r : Byte) (w : Word) : (raise s f r w).config = s.config := rfl
@[simp] theorem raise_pending (s : State) (f : FaultCode) (r : Byte) (w : Word) : (raise s f r w).pending = s.pending := rfl
@[simp] theorem raise_randoms (s : State) (f : FaultCode) (r : Byte) (w : Word) : (raise s f r w).randoms = s.randoms := rfl
@[simp] theorem raise_draws (s : State) (f : FaultCode) (r : Byte) (w : Word) : (raise s f r w).draws = s.draws := rfl

/-! `afterFetch` -/

@[simp] theorem afterFetch_mem (s : State) (w : Word) : (afterFetch s w).mem = s.mem := rfl
@[simp] theorem afterFetch_v (s : State) (w : Word) : (afterFetch s w).v = s.v := rfl
@[simp] theorem afterFetch_i (s : State) (w : Word) : (afterFetch s w).i = s.i := rfl
@[simp] theorem afterFetch_pc (s : State) (w : Word) : (afterFetch s w).pc = s.pc + 2 := rfl
@[simp] theorem afterFetch_sp (s : State) (w : Word) : (afterFetch s w).sp = s.sp := rfl
@[simp] theorem afterFetch_dt (s : State) (w : Word) : (afterFetch s w).dt = s.dt := rfl
@[simp] theorem afterFetch_st (s : State) (w : Word) : (afterFetch s w).st = s.st := rfl
@[simp] theorem afterFetch_keys (s : State) (w : Word) : (afterFetch s w).keys = s.keys := rfl
@[simp] theorem afterFetch_run (s : State) (w : Word) : (afterFetch s w).run = s.run := rfl
@[simp] theorem afterFetch_fb (s : State) (w : Word) : (afterFetch s w).fb = s.fb := rfl
@[simp] theorem afterFetch_err (s : State) (w : Word) : (afterFetch s w).err = s.err := rfl
@[simp] theorem afterFetch_lastOpcode (s : State) (w : Word) : (afterFetch s w).lastOpcode = w := rfl
@[simp] theorem afterFetch_faulted (s : State) (w : Word) : (afterFetch s w).faulted = s.faulted := rfl
@[simp] theorem afterFetch_config (s : State) (w : Word) : (afterFetch s w).config = s.config := rfl
@[simp] theorem afterFetch_pending (s : State) (w : Word) : (afterFetch s w).pending = s.pending := rfl
@[simp] theorem afterFetch_randoms (s : State) (w : Word) : (afterFetch s w).randoms = s.randoms := rfl
@[simp] theorem afterFetch_draws (s : State) (w : Word) : (afterFetch s w).draws = s.draws := rfl

/-! `togglePixel` -/

@[simp] theorem togglePixel_mem (s : State) (x : Fin 64) (y : Fin 32) : (togglePixel s x y).mem = s.mem := rfl
@[simp] theorem togglePixel_v (s : State) (x : Fin 64) (y : Fin 32) : (togglePixel s x y).v = s.v := rfl
@[simp] theorem togglePixel_i (s : State) (x : Fin 64) (y : Fin 32) : (togglePixel s x y).i = s.i := rfl
@[simp] theorem togglePixel_pc (s : State) (x : Fin 64) (y : Fin 32) : (togglePixel s x y).pc = s.pc := rfl
@[simp] theorem togglePixel_sp (s : State) (x : Fin 64) (y : Fin 32) : (togglePixel s x y).sp = s.sp := rfl
@[simp] theorem togglePixel_dt (s : State) (x : Fin 64) (y : Fin 32) : (togglePixel s x y).dt = s.dt := rfl
@[simp] theorem togglePixel_st (s : State) (x : Fin 64) (y : Fin 32) : (togglePixel s x y).st = s.st := rfl
@[simp] theorem togglePixel_keys (s : State) (x : Fin 64) (y : Fin 32) : (togglePixel s x y).keys = s.keys := rfl
@[simp] theorem togglePixel_run (s : State) (x : Fin 64) (y : Fin 32) : (togglePixel s x y).run = s.run := rfl
@[simp] theorem togglePixel_err (s : State) (x : Fin 64) (y : Fin 32) : (togglePixel s x y).err = s.err := rfl
@[simp] theorem togglePixel_lastOpcode (s : State) (x : Fin 64) (y : Fin 32) : (togglePixel s x y).lastOpcode = s.lastOpcode := rfl
@[simp] theorem togglePixel_faulted (s : State) (x : Fin 64) (y : Fin 32) : (togglePixel s x y).faulted = s.faulted := rfl
@[simp] theorem togglePixel_config (s : State) (x : Fin 64) (y : Fin 32) : (togglePixel s x y).config = s.config := rfl
@[simp] theorem togglePixel_pending (s : State) (x : Fin 64) (y : Fin 32) : (togglePixel s x y).pending = s.pending := rfl
@[simp] theorem togglePixel_randoms (s : State) (x : Fin 64) (y : Fin 32) : (togglePixel s x y).randoms = s.randoms := rfl
@[simp] theorem togglePixel_draws (s : State) (x : Fin 64) (y : Fin 32) : (togglePixel s x y).draws = s.draws := rfl

/-! `setKey` -/

@[simp] theorem setKey_mem (s : State) (k : Nibble) (b : Bool) : (setKey s k b).mem = s.mem := rfl
@[simp] theorem setKey_v (s : State) (k : Nibble) (b : Bool) : (setKey s k b).v = s.v := rfl
@[simp] theorem setKey_i (s : State) (k : Nibble) (b : Bool) : (setKey s k b).i = s.i := rfl
@[simp] theorem setKey_pc (s : State) (k : Nibble) (b : Bool) : (setKey s k b).pc = s.pc := rfl
@[simp] theorem setKey_sp (s : State) (k : Nibble) (b : Bool) : (setKey s k b).sp = s.sp := rfl
@[simp] theorem setKey_dt (s : State) (k : Nibble) (b : Bool) : (setKey s k b).dt = s.dt := rfl
@[simp] theorem setKey_st (s : State) (k : Nibble) (b : Bool) : (setKey s k b).st = s.st := rfl
@[simp] theorem setKey_run (s : State) (k : Nibble) (b : Bool) : (setKey s k b).run = s.run := rfl
@[simp] theorem setKey_fb (s : State) (k : Nibble) (b : Bool) : (setKey s k b).fb = s.fb := rfl
@[simp] theorem setKey_err (s : State) (k : Nibble) (b : Bool) : (setKey s k b).err = s.err := rfl
@[simp] theorem setKey_lastOpcode (s : State) (k : Nibble) (b : Bool) : (setKey s k b).lastOpcode = s.lastOpcode := rfl
@[simp] theorem setKey_faulted (s : State) (k : Nibble) (b : Bool) : (setKey s k b).faulted = s.faulted := rfl
@[simp] theorem setKey_config (s : State) (k : Nibble) (b : Bool) : (setKey s k b).config = s.config := rfl
@[simp] theorem setKey_pending (s : State) (k : Nibble) (b : Bool) : (setKey s k b).pending = s.pending := rfl
@[simp] theorem setKey_randoms (s : State) (k : Nibble) (b : Bool) : (setKey s k b).randoms = s.randoms := rfl
@[simp] theorem setKey_draws (s : State) (k : Nibble) (b : Bool) : (setKey s k b).draws = s.draws := rfl

/-! `decrementTimers` -/

@[simp] theorem decrementTimers_mem (s : State) : (decrementTimers s).mem = s.mem := rfl
@[simp] theorem decrementTimers_v (s : State) : (decrementTimers s).v = s.v := rfl
@[simp] theorem decrementTimers_i (s : State) : (decrementTimers s).i = s.i := rfl
@[simp] theorem decrementTimers_pc (s : State) : (decrementTimers s).pc = s.pc := rfl
@[simp] theorem decrementTimers_sp (s : State) : (decrementTimers s).sp = s.sp := rfl
@[simp] theorem decrementTimers_dt (s : State) : (decrementTimers s).dt = countDown s.dt := rfl
@[simp] theorem decrementTimers_st (s : State) : (decrementTimers s).st = countDown s.st := rfl
@[simp] theorem decrementTimers_keys (s : State) : (decrementTimers s).keys = s.keys := rfl
@[simp] theorem decrementTimers_run (s : State) : (decrementTimers s).run = s.run := rfl
@[simp] theorem decrementTimers_fb (s : State) : (decrementTimers s).fb = s.fb := rfl
@[simp] theorem decrementTimers_err (s : State) : (decrementTimers s).err = s.err := rfl
@[simp] theorem decrementTimers_lastOpcode (s : State) : (decrementTimers s).lastOpcode = s.lastOpcode := rfl
@[simp] theorem decrementTimers_faulted (s : State) : (decrementTimers s).faulted = s.faulted := rfl
@[simp] theorem decrementTimers_config (s : State) : (decrementTimers s).config = s.config := rfl
@[simp] theorem decrementTimers_pending (s : State) : (decrementTimers s).pending = s.pending := rfl
@[simp] theorem decrementTimers_randoms (s : State) : (decrementTimers s).randoms = s.randoms := rfl
@[simp] theorem decrementTimers_draws (s : State) : (decrementTimers s).draws = s.draws := rfl

/-! `clearError` -/

@[simp] theorem clearError_mem (s : State) : (clearError s).mem = s.mem := rfl
@[simp] theorem clearError_v (s : State) : (clearError s).v = s.v := rfl
@[simp] theorem clearError_i (s : State) : (clearError s).i = s.i := rfl
@[simp] theorem clearError_pc (s : State) : (clearError s).pc = s.pc := rfl
@[simp] theorem clearError_sp (s : State) : (clearError s).sp = s.sp := rfl
@[simp] theorem clearError_dt (s : State) : (clearError s).dt = s.dt := rfl
@[simp] theorem clearError_st (s : State) : (clearError s).st = s.st := rfl
@[simp] theorem clearError_keys (s : State) : (clearError s).keys = s.keys := rfl
@[simp] theorem clearError_run (s : State) : (clearError s).run = s.run := rfl
@[simp] theorem clearError_fb (s : State) : (clearError s).fb = s.fb := rfl
@[simp] theorem clearError_err (s : State) : (clearError s).err = .empty := rfl
@[simp] theorem clearError_lastOpcode (s : State) : (clearError s).lastOpcode = s.lastOpcode := rfl
@[simp] theorem clearError_faulted (s : State) : (clearError s).faulted = s.faulted := rfl
@[simp] theorem clearError_config (s : State) : (clearError s).config = s.config := rfl
@[simp] theorem clearError_pending (s : State) : (clearError s).pending = s.pending := rfl
@[simp] theorem clearError_randoms (s : State) : (clearError s).randoms = s.randoms := rfl
@[simp] theorem clearError_draws (s : State) : (clearError s).draws = s.draws := rfl

/-! The accessors over the updates that do not touch what they read. -/

@[simp] theorem writeI_readV (s : State) (w : Word) (q : Nibble) : readV (writeI s w) q = readV s q := rfl
@[simp] theorem writePC_readV (s : State) (w : Word) (q : Nibble) : readV (writePC s w) q = readV s q := rfl
@[simp] theorem skipNext_readV (s : State) (q : Nibble) : readV (skipNext s) q = readV s q := rfl
@[simp] theorem setByte_readV (s : State) (a : Nat) (b : Byte) (q : Nibble) : readV (setByte s a b) q = readV s q := rfl
@[simp] theorem raise_readV (s : State) (f : FaultCode) (r : Byte) (w : Word) (q : Nibble) : readV (raise s f r w) q = readV s q := rfl
@[simp] theorem afterFetch_readV (s : State) (w : Word) (q : Nibble) : readV (afterFetch s w) q = readV s q := rfl
@[simp] theorem togglePixel_readV (s : State) (x : Fin 64) (y : Fin 32) (q : Nibble) : readV (togglePixel s x y) q = readV s q := rfl
@[simp] theorem setKey_readV (s : State) (k : Nibble) (b : Bool) (q : Nibble) : readV (setKey s k b) q = readV s q := rfl
@[simp] theorem decrementTimers_readV (s : State) (q : Nibble) : readV (decrementTimers s) q = readV s q := rfl
@[simp] theorem clearError_readV (s : State) (q : Nibble) : readV (clearError s) q = readV s q := rfl
@[simp] theorem writeV_byteAt (s : State) (x : Nibble) (b : Byte) (d : Nat) : byteAt (writeV s x b) d = byteAt s d := rfl
@[simp] theorem writeI_byteAt (s : State) (w : Word) (d : Nat) : byteAt (writeI s w) d = byteAt s d := rfl
@[simp] theorem writePC_byteAt (s : State) (w : Word) (d : Nat) : byteAt (writePC s w) d = byteAt s d := rfl
@[simp] theorem skipNext_byteAt (s : State) (d : Nat) : byteAt (skipNext s) d = byteAt s d := rfl
@[simp] theorem raise_byteAt (s : State) (f : FaultCode) (r : Byte) (w : Word) (d : Nat) : byteAt (raise s f r w) d = byteAt s d := rfl
@[simp] theorem afterFetch_byteAt (s : State) (w : Word) (d : Nat) : byteAt (afterFetch s w) d = byteAt s d := rfl
@[simp] theorem togglePixel_byteAt (s : State) (x : Fin 64) (y : Fin 32) (d : Nat) : byteAt (togglePixel s x y) d = byteAt s d := rfl
@[simp] theorem setKey_byteAt (s : State) (k : Nibble) (b : Bool) (d : Nat) : byteAt (setKey s k b) d = byteAt s d := rfl
@[simp] theorem decrementTimers_byteAt (s : State) (d : Nat) : byteAt (decrementTimers s) d = byteAt s d := rfl
@[simp] theorem clearError_byteAt (s : State) (d : Nat) : byteAt (clearError s) d = byteAt s d := rfl
@[simp] theorem writeV_pixel (s : State) (x : Nibble) (b : Byte) (px : Fin 64) (py : Fin 32) : pixel (writeV s x b) px py = pixel s px py := rfl
@[simp] theorem writeI_pixel (s : State) (w : Word) (px : Fin 64) (py : Fin 32) : pixel (writeI s w) px py = pixel s px py := rfl
@[simp] theorem writePC_pixel (s : State) (w : Word) (px : Fin 64) (py : Fin 32) : pixel (writePC s w) px py = pixel s px py := rfl
@[simp] theorem skipNext_pixel (s : State) (px : Fin 64) (py : Fin 32) : pixel (skipNext s) px py = pixel s px py := rfl
@[simp] theorem setByte_pixel (s : State) (a : Nat) (b : Byte) (px : Fin 64) (py : Fin 32) : pixel (setByte s a b) px py = pixel s px py := rfl
@[simp] theorem raise_pixel (s : State) (f : FaultCode) (r : Byte) (w : Word) (px : Fin 64) (py : Fin 32) : pixel (raise s f r w) px py = pixel s px py := rfl
@[simp] theorem afterFetch_pixel (s : State) (w : Word) (px : Fin 64) (py : Fin 32) : pixel (afterFetch s w) px py = pixel s px py := rfl
@[simp] theorem setKey_pixel (s : State) (k : Nibble) (b : Bool) (px : Fin 64) (py : Fin 32) : pixel (setKey s k b) px py = pixel s px py := rfl
@[simp] theorem decrementTimers_pixel (s : State) (px : Fin 64) (py : Fin 32) : pixel (decrementTimers s) px py = pixel s px py := rfl
@[simp] theorem clearError_pixel (s : State) (px : Fin 64) (py : Fin 32) : pixel (clearError s) px py = pixel s px py := rfl
@[simp] theorem writeV_keyPressed (s : State) (x : Nibble) (b : Byte) (q : Nibble) : keyPressed (writeV s x b) q = keyPressed s q := rfl
@[simp] theorem writeI_keyPressed (s : State) (w : Word) (q : Nibble) : keyPressed (writeI s w) q = keyPressed s q := rfl
@[simp] theorem writePC_keyPressed (s : State) (w : Word) (q : Nibble) : keyPressed (writePC s w) q = keyPressed s q := rfl
@[simp] theorem skipNext_keyPressed (s : State) (q : Nibble) : keyPressed (skipNext s) q = keyPressed s q := rfl
@[simp] theorem setByte_keyPressed (s : State) (a : Nat) (b : Byte) (q : Nibble) : keyPressed (setByte s a b) q = keyPressed s q := rfl
@[simp] theorem raise_keyPressed (s : State) (f : FaultCode) (r : Byte) (w : Word) (q : Nibble) : keyPressed (raise s f r w) q = keyPressed s q := rfl
@[simp] theorem afterFetch_keyPressed (s : State) (w : Word) (q : Nibble) : keyPressed (afterFetch s w) q = keyPressed s q := rfl
@[simp] theorem togglePixel_keyPressed (s : State) (x : Fin 64) (y : Fin 32) (q : Nibble) : keyPressed (togglePixel s x y) q = keyPressed s q := rfl
@[simp] theorem decrementTimers_keyPressed (s : State) (q : Nibble) : keyPressed (decrementTimers s) q = keyPressed s q := rfl
@[simp] theorem clearError_keyPressed (s : State) (q : Nibble) : keyPressed (clearError s) q = keyPressed s q := rfl

end Sys2Proof.Machine
end

