-- ==== Sys2Proof/Laws/Ops.lean ====
section
/-! SUPPORT. What each shared operation over registers, memory and pixels can do, said once. -/

namespace Sys2Proof.Machine

/-! Registers. -/

theorem readV_writeV_same (s : State) (x : Nibble) (b : Byte) : readV (writeV s x b) x = b := by
  simp [readV, writeV]

theorem readV_writeV_other (s : State) {x r : Nibble} (b : Byte) (h : r ≠ x) :
    readV (writeV s x b) r = readV s r := by
  have : x.toNat ≠ r.toNat := fun e => h (BitVec.eq_of_toNat_eq e.symm)
  simp [readV, writeV, this]

theorem readV_writeV (s : State) (x r : Nibble) (b : Byte) :
    readV (writeV s x b) r = if r = x then b else readV s r := by
  split
  · next h => rw [h, readV_writeV_same]
  · next h => exact readV_writeV_other s b h

/-- The flag is written last, so `VF` holds it whatever the destination is (R130). -/
theorem readV_writeResultThenFlag (s : State) (x r : Nibble) (a flag : Byte) :
    readV (writeResultThenFlag s x a flag) r =
      if r = flagReg then flag else if r = x then a else readV s r := by
  simp only [writeResultThenFlag, readV_writeV]

/-! Bytes of memory. -/

theorem byteAt_setByte_other (s : State) {a d : Nat} (b : Byte) (h : d ≠ a) :
    byteAt (setByte s a b) d = byteAt s d :=
  Memory.read_write_other s.config s.mem b h

theorem byteAt_setByte_same {s : State} (hs : Memory.wf s.config s.mem) (a : Nat) (b : Byte) :
    byteAt (setByte s a b) a = b :=
  Memory.read_write_same hs a b

theorem setByte_wf {s : State} (hs : Memory.wf s.config s.mem) {a : Nat} (ha : a < memSize) (b : Byte) :
    Memory.wf (setByte s a b).config (setByte s a b).mem :=
  Memory.write_wf hs ha b

theorem rawRead_eq {s : State} {a : Nat} (h : a < memSize) : rawRead s a = some (byteAt s a) := by
  simp [rawRead, h]

theorem rawWrite_eq {s : State} {a : Nat} (b : Byte) (h : a < memSize) : rawWrite s a b = some (setByte s a b) := by
  simp [rawWrite, h]

theorem rawWrite_cases {s t : State} {a : Nat} {b : Byte} (h : rawWrite s a b = some t) :
    a < memSize ∧ t = setByte s a b := by
  unfold rawWrite at h
  split at h
  · exact ⟨‹_›, (Option.some.inj h).symm⟩
  · simp at h

theorem memRead_cases {s : State} {a : Nat} {b : Byte} (h : memRead s a = some b) :
    a ≤ userEnd ∧ b = byteAt s a := by
  unfold memRead at h
  split at h
  · simp at h
  · exact ⟨Nat.le_of_not_lt ‹_›, (Option.some.inj h).symm⟩

theorem memRead_eq {s : State} {a : Nat} (h : a ≤ userEnd) : memRead s a = some (byteAt s a) := by
  simp [memRead, Nat.not_lt.mpr h]

theorem memWrite_cases {s t : State} {a : Nat} {b : Byte} (h : memWrite s a b = some t) :
    Writable s a ∧ t = setByte s a b := by
  unfold memWrite at h
  split at h
  · simp at h
  · split at h
    · simp at h
    · next h1 h2 =>
      exact ⟨⟨Nat.le_of_not_lt h1, fun hp => Nat.le_of_not_lt fun hl => h2 ⟨hp, hl⟩⟩, (Option.some.inj h).symm⟩

theorem memWrite_eq {s : State} {a : Nat} (b : Byte) (h : Writable s a) : memWrite s a b = some (setByte s a b) := by
  obtain ⟨h1, h2⟩ := h
  unfold memWrite
  rw [if_neg (Nat.not_lt.mpr h1), if_neg]
  exact fun ⟨hp, hl⟩ => Nat.not_lt.mpr (h2 hp) hl

theorem memWrite_none {s : State} {a : Nat} (b : Byte) (h : ¬ Writable s a) : memWrite s a b = none := by
  cases hw : memWrite s a b with
  | none => rfl
  | some t => exact absurd (memWrite_cases hw).1 h

/-! Push, pop, fetch. -/

theorem pushWord_cases {s t : State} {w : Word} (h : pushWord s w = some t) :
    s.sp.toNat + 1 < memSize ∧
      t = { setByte (setByte s s.sp.toNat (highByte w)) (s.sp.toNat + 1) (lowByte w) with sp := s.sp + 2 } := by
  unfold pushWord at h
  split at h
  · simp at h
  · next u hu =>
    obtain ⟨-, rfl⟩ := rawWrite_cases hu
    split at h
    · simp at h
    · next v hv =>
      obtain ⟨hlt, rfl⟩ := rawWrite_cases hv
      exact ⟨hlt, (Option.some.inj h).symm⟩

theorem pushWord_eq {s : State} (w : Word) (h : s.sp.toNat + 1 < memSize) :
    pushWord s w =
      some { setByte (setByte s s.sp.toNat (highByte w)) (s.sp.toNat + 1) (lowByte w) with sp := s.sp + 2 } := by
  simp only [pushWord, rawWrite_eq _ (Nat.lt_of_succ_lt h), rawWrite_eq _ h]

theorem popWord_cases {s t : State} {w : Word} (h : popWord s = some (w, t)) :
    (s.sp - 2).toNat + 1 < memSize ∧ t = { s with sp := s.sp - 2 } ∧
      w = wordOfBytes (byteAt s (s.sp - 2).toNat) (byteAt s ((s.sp - 2).toNat + 1)) := by
  unfold popWord rawRead at h
  split at h
  · next hi lo h1 h2 =>
    split at h1 <;> split at h2 <;> simp_all
  · simp at h

theorem popWord_eq {s : State} (h : (s.sp - 2).toNat + 1 < memSize) :
    popWord s =
      some (wordOfBytes (byteAt s (s.sp - 2).toNat) (byteAt s ((s.sp - 2).toNat + 1)), { s with sp := s.sp - 2 }) := by
  simp only [popWord, rawRead_eq (Nat.lt_of_succ_lt h), rawRead_eq h]

theorem fetchedWord_cases {s : State} {w : Word} (h : fetchedWord s = some w) :
    s.pc.toNat + 1 < memSize ∧ w = wordOfBytes (byteAt s s.pc.toNat) (byteAt s (s.pc.toNat + 1)) := by
  unfold fetchedWord rawRead at h
  split at h
  · next hi lo h1 h2 =>
    split at h1 <;> split at h2 <;> simp_all
  · simp at h

theorem fetchedWord_eq {s : State} (h : s.pc.toNat + 1 < memSize) :
    fetchedWord s = some (wordOfBytes (byteAt s s.pc.toNat) (byteAt s (s.pc.toNat + 1))) := by
  simp only [fetchedWord, rawRead_eq (Nat.lt_of_succ_lt h), rawRead_eq h]

theorem fetchedWord_none {s : State} (h : memSize ≤ s.pc.toNat + 1) : fetchedWord s = none := by
  cases hw : fetchedWord s with
  | none => rfl
  | some w => exact absurd (fetchedWord_cases hw).1 (Nat.not_lt.mpr h)

/-- The two bytes of a word put together are the word (R58). -/
theorem wordOfBytes_high_low (w : Word) : wordOfBytes (highByte w) (lowByte w) = w := by
  apply BitVec.eq_of_getLsbD_eq
  intro i hi
  simp only [wordOfBytes, highByte, lowByte, BitVec.getLsbD_append, BitVec.getLsbD_extractLsb']
  by_cases h : i < 8
  · simp [h]
  · have : i - 8 < 8 := by omega
    have e : 8 + (i - 8) = i := by omega
    simp [h, this, e]

/-! Pixels. -/

theorem pixel_togglePixel (s : State) (x px : Fin 64) (y py : Fin 32) :
    pixel (togglePixel s x y) px py = if px = x ∧ py = y then !(pixel s x y) else pixel s px py := by
  obtain ⟨y, hy⟩ := y
  obtain ⟨py, hpy⟩ := py
  obtain ⟨x, hx⟩ := x
  obtain ⟨px, hpx⟩ := px
  simp only [pixel, togglePixel, Fin.mk.injEq, Fin.getElem_fin, Vector.getElem_set]
  by_cases h1 : y = py
  · subst h1
    by_cases h2 : x = px
    · subst h2; simp
    · have : ¬ px = x := fun e => h2 e.symm
      simp [h2, this]
  · have : ¬ py = y := fun e => h1 e.symm
    simp [h1, this]

/-! Operands and flags as numbers. -/

theorem targetOk_iff (t : Nat) : targetOk t = true ↔ t ≤ userEnd := by
  unfold targetOk; exact decide_eq_true_iff

theorem highByte_toNat (w : Word) : (highByte w).toNat = w.toNat / 256 := by
  simp [highByte, Nat.shiftRight_eq_div_pow]; omega

theorem lowByte_toNat (w : Word) : (lowByte w).toNat = w.toNat % 256 := by simp [lowByte]

theorem wordOfBytes_toNat (hi lo : Byte) : (wordOfBytes hi lo).toNat = 256 * hi.toNat + lo.toNat := by
  rw [wordOfBytes, toNat_append']; omega

theorem addrWord_toNat (nnn : Addr) : (addrWord nnn).toNat = nnn.toNat := by
  simp only [addrWord, BitVec.toNat_setWidth]; omega

/-- `I` keeps 12 bits (R24). -/
theorem writeI_toNat (s : State) (w : Word) : (writeI s w).i.toNat = w.toNat % 4096 := by
  show (w &&& 0x0FFF#16).toNat = _
  rw [BitVec.toNat_and]
  exact Nat.and_two_pow_sub_one_eq_mod w.toNat 12

theorem flagByte_toNat (b : Bool) : (flagByte b).toNat = if b then 1 else 0 := by cases b <;> rfl

theorem readV_flagReg_writeResultThenFlag (s : State) (x : Nibble) (a flag : Byte) :
    readV (writeResultThenFlag s x a flag) flagReg = flag := readV_writeV_same _ _ _

theorem readV_result_writeResultThenFlag (s : State) {x : Nibble} (a flag : Byte) (h : x ≠ flagReg) :
    readV (writeResultThenFlag s x a flag) x = a := by
  rw [readV_writeResultThenFlag, if_neg h, if_pos rfl]

theorem keyIndex_some {b : Byte} {k : Nibble} (h : b.toNat = k.toNat) : keyIndex b = some k := by
  have := k.isLt
  rw [keyIndex, if_neg (by omega)]
  congr 1
  apply BitVec.eq_of_toNat_eq
  rw [BitVec.toNat_setWidth, h]; omega

theorem keyIndex_none {b : Byte} (h : 15 < b.toNat) : keyIndex b = none := by rw [keyIndex, if_pos h]

/-! Keys and timers. -/

theorem keyPressed_setKey_same (s : State) (k : Nibble) (b : Bool) : keyPressed (setKey s k b) k = b := by
  simp [keyPressed, setKey]

theorem keyPressed_setKey_other (s : State) {k j : Nibble} (b : Bool) (h : j ≠ k) :
    keyPressed (setKey s k b) j = keyPressed s j := by
  have : k.toNat ≠ j.toNat := fun e => h (BitVec.eq_of_toNat_eq e.symm)
  simp [keyPressed, setKey, this]

theorem countDown_toNat (b : Byte) : (countDown b).toNat = b.toNat - 1 := by
  unfold countDown
  split
  · next h => subst h; rfl
  · next h => bv_omega

end Sys2Proof.Machine
end

