-- ==== Sys2Proof/Laws/Display.lean ====
section
/-! SUPPORT. Sprite drawing: a row toggles the pixels its set bits fall on and raises the sticky flag where one was set;
rows add up; a refused row ends the drawing (R181). -/

namespace Sys2Proof.Machine

/-- Columns `0 ..< k` of a row with byte `b` from column `vx` put a set bit on column `px`. -/
def colBit (b : Byte) (vx k : Nat) (px : Fin 64) : Bool :=
  (List.range k).any fun c => (vx + c) % 64 == px.val && b.getLsbD (7 - c)

theorem colBit_succ (b : Byte) (vx k : Nat) (px : Fin 64) :
    colBit b vx (k + 1) px = (colBit b vx k px || ((vx + k) % 64 == px.val && b.getLsbD (7 - k))) := by
  simp [colBit, List.range_succ]

/-- The eight columns of a row are distinct (R181). -/
theorem colBit_fresh (b : Byte) (vx k : Nat) (hk : k < 8) : colBit b vx k (Fin.ofNat 64 (vx + k)) = false := by
  simp only [colBit, List.any_eq_false, List.mem_range, Bool.and_eq_true, beq_iff_eq, not_and, Fin.ofNat]
  intro c hc h
  omega

/-- What drawing does to a state: pixels toggled where `bits` says so, and the flag register raised to 1 where a toggled
pixel was set, else left alone. -/
structure Drawn (s t : State) (bits : Fin 64 → Fin 32 → Bool) : Prop where
  shape : ∃ v fb, t = { s with v := v, fb := fb }
  pixels : ∀ px py, pixel t px py = (pixel s px py ^^ bits px py)
  others : ∀ r, r ≠ flagReg → readV t r = readV s r
  hit : (∃ px py, pixel s px py = true ∧ bits px py = true) → readV t flagReg = 1
  clear : (∀ px py, pixel s px py = true → bits px py = false) → readV t flagReg = readV s flagReg

theorem Drawn.refl (s : State) : Drawn s s (fun _ _ => false) :=
  ⟨⟨_, _, rfl⟩, by simp, fun _ _ => rfl, by simp, fun _ => rfl⟩

theorem Drawn.congr {s t : State} {b b' : Fin 64 → Fin 32 → Bool} (h : Drawn s t b) (e : ∀ px py, b px py = b' px py) :
    Drawn s t b' := by
  have : b = b' := funext fun px => funext fun py => e px py
  exact this ▸ h

/-- Two drawings one after the other, on pixels apart, are one drawing. -/
theorem Drawn.trans {s t u : State} {b c : Fin 64 → Fin 32 → Bool} (h : Drawn s t b) (k : Drawn t u c)
    (apart : ∀ px py, b px py = true → c px py = false) : Drawn s u (fun px py => b px py || c px py) := by
  have keep : ∀ px py, c px py = true → pixel t px py = pixel s px py := fun px py hc => by
    have : b px py = false := by
      cases hb : b px py with
      | false => rfl
      | true => rw [apart px py hb] at hc; cases hc
    rw [h.pixels, this, Bool.xor_false]
  refine ⟨?_, fun px py => ?_, fun r hr => (k.others r hr).trans (h.others r hr), ?_, ?_⟩
  · obtain ⟨v, fb, rfl⟩ := h.shape
    obtain ⟨v', fb', rfl⟩ := k.shape
    exact ⟨v', fb', rfl⟩
  · rw [k.pixels, h.pixels]
    have := apart px py
    cases hb : b px py <;> cases hc : c px py <;> simp_all
  · rintro ⟨px, py, hs, hbc⟩
    by_cases hex : ∃ px py, pixel t px py = true ∧ c px py = true
    · exact k.hit hex
    · rw [k.clear fun px py ht => by
        cases hc : c px py with
        | false => rfl
        | true => exact absurd ⟨px, py, ht, hc⟩ hex]
      refine h.hit ⟨px, py, hs, ?_⟩
      cases hc : c px py with
      | true => exact absurd ⟨px, py, by rw [keep px py hc, hs], hc⟩ hex
      | false => simpa [hc] using hbc
  · intro hno
    rw [k.clear, h.clear]
    · intro px py hs
      have := hno px py hs
      simp only [Bool.or_eq_false_iff] at this
      exact this.1
    · intro px py ht
      cases hc : c px py with
      | false => rfl
      | true =>
        have := hno px py (by rw [← keep px py hc, ht])
        simp [hc] at this

/-- One set bit. -/
theorem plot_drawn (s : State) (x : Fin 64) (y : Fin 32) :
    Drawn s (plot s x y) (fun px py => decide (px = x ∧ py = y)) := by
  have hpix : ∀ px py, pixel (if pixel s x y then writeV s flagReg 1 else s) px py = pixel s px py := by
    intro px py; split <;> simp
  refine ⟨?_, fun px py => ?_, fun r hr => ?_, ?_, ?_⟩
  · unfold plot; split <;> exact ⟨_, _, rfl⟩
  · simp only [plot, pixel_togglePixel, hpix]
    by_cases h : px = x ∧ py = y
    · obtain ⟨rfl, rfl⟩ := h; simp
    · simp [h]
  · unfold plot; split
    · rw [togglePixel_readV, readV_writeV_other _ _ hr]
    · rfl
  · rintro ⟨px, py, hs, hd⟩
    obtain ⟨rfl, rfl⟩ := of_decide_eq_true hd
    simp only [plot, hs, if_true, togglePixel_readV, readV_writeV_same]
  · intro hno
    have : pixel s x y = false := by
      cases h : pixel s x y with
      | false => rfl
      | true => simpa using hno x y h
    simp [plot, this]

/-- The first `k` columns of a row. -/
theorem drawCols_drawn (s : State) (b : Byte) (vx : Nat) (y : Fin 32) (k : Nat) (hk : k ≤ 8) :
    Drawn s ((List.range k).foldl (drawBit b vx y) s) (fun px py => decide (py = y) && colBit b vx k px) := by
  induction k with
  | zero => exact (Drawn.refl s).congr fun _ _ => by simp [colBit]
  | succ k ih =>
    rw [List.range_succ, List.foldl_append, List.foldl_cons, List.foldl_nil]
    have h := ih (by omega)
    unfold drawBit
    cases hb : b.getLsbD (7 - k) with
    | false =>
      simp only [Bool.false_eq_true, if_false] at h ⊢
      exact h.congr fun px py => by rw [colBit_succ, hb]; simp
    | true =>
      simp only [if_true]
      refine ((h.trans (plot_drawn _ _ _)) ?_).congr fun px py => ?_
      · intro px py hd
        rw [decide_eq_false_iff_not]
        rintro ⟨rfl, rfl⟩
        rw [colBit_fresh b vx k (by omega)] at hd
        simp at hd
      · rw [colBit_succ, hb, Bool.and_true]
        have : ((vx + k) % 64 == px.val) = decide (px = Fin.ofNat 64 (vx + k)) := by
          rw [Bool.eq_iff_iff, beq_iff_eq, decide_eq_true_iff, Fin.ext_iff]
          simp only [Fin.ofNat]
          exact eq_comm
        rw [this]
        by_cases h1 : py = y <;> by_cases h2 : px = Fin.ofNat 64 (vx + k) <;> simp [h1, h2]

/-- A whole row. -/
theorem drawRow_drawn (s : State) (b : Byte) (vx : Nat) (y : Fin 32) :
    Drawn s (drawRow s b vx y) (fun px py => decide (py = y) && colBit b vx 8 px) :=
  drawCols_drawn s b vx y 8 (Nat.le_refl 8)

/-- Rows `r ..< r + n` of the sprite, as the picture `spriteBit` counts them. -/
def rowsBit (s : State) (vx vy r n : Nat) (px : Fin 64) (py : Fin 32) : Bool :=
  (List.range n).any fun q => rowFalls s.config.wrapY vy (r + q) py.val &&
    colBit (byteAt s (s.i.toNat + (r + q))) vx 8 px

theorem spriteBit_eq_rowsBit (s : State) (vx vy n : Nat) (px : Fin 64) (py : Fin 32) :
    spriteBit s vx vy n px py = rowsBit s vx vy 0 n px py := by
  simp [spriteBit, rowsBit, colBit]

theorem rowsBit_succ (s : State) (vx vy r n : Nat) (px : Fin 64) (py : Fin 32) :
    rowsBit s vx vy r (n + 1) px py =
      ((rowFalls s.config.wrapY vy r py.val && colBit (byteAt s (s.i.toNat + r)) vx 8 px) ||
        rowsBit s vx vy (r + 1) n px py) := by
  simp only [rowsBit, List.range_succ_eq_map, List.any_cons, List.any_map, Nat.add_zero]
  congr 1
  apply List.any_congr rfl
  intro q
  simp [Nat.add_assoc, Nat.add_comm, Nat.add_left_comm]

/-- A drawing reads memory, `I` and the configuration, and changes none of them. -/
theorem Drawn.rowsBit_eq {s t : State} {b : Fin 64 → Fin 32 → Bool} (h : Drawn s t b) (vx vy r n : Nat) (px : Fin 64)
    (py : Fin 32) : rowsBit t vx vy r n px py = rowsBit s vx vy r n px py := by
  obtain ⟨v, fb, rfl⟩ := h.shape
  rfl

/-- Whatever happens, drawing changes the registers, the pixels, the latch and the ghost bit only. -/
theorem drawRows_shape (n : Nat) (s : State) (vx vy r : Nat) :
    ∃ v fb e f, drawRows s vx vy r n = { s with v := v, fb := fb, err := e, faulted := f } := by
  induction n generalizing s r with
  | zero => exact ⟨_, _, _, _, rfl⟩
  | succ n ih =>
    have step : ∀ (b : Byte) (y : Fin 32), ∃ v fb e f,
        drawRows (drawRow s b vx y) vx vy (r + 1) n = { s with v := v, fb := fb, err := e, faulted := f } := by
      intro b y
      obtain ⟨v, fb, h⟩ := (drawRow_drawn s b vx y).shape
      obtain ⟨v', fb', e, f, h'⟩ := ih (drawRow s b vx y) (r + 1)
      exact ⟨v', fb', e, f, by rw [h', h]⟩
    simp only [drawRows]
    split
    · exact ⟨_, _, _, _, rfl⟩
    · split
      · exact step _ _
      · split
        · exact ⟨_, _, _, _, rfl⟩
        · exact step _ _

/-- Where no reached row is refused, the rows are drawn: `n` of them from row `r`, those that fall on the screen. -/
theorem drawRows_drawn (n : Nat) (s : State) (vx vy r : Nat) (hn : r + n ≤ 32)
    (hr : ∀ q, q < n → rowReached s vy (r + q) → s.i.toNat + (r + q) ≤ userEnd)
    (h0 : rowReached s vy r) :
    Drawn s (drawRows s vx vy r n) (rowsBit s vx vy r n) := by
  induction n generalizing s r with
  | zero => exact (Drawn.refl s).congr fun _ _ => by simp [rowsBit]
  | succ n ih =>
    have hread : memRead s (effAddr s r) = some (byteAt s (s.i.toNat + r)) :=
      memRead_eq (hr 0 (by omega) h0)
    -- one row on the screen at `y`, then the rest
    have go : ∀ y : Fin 32, (∀ py : Fin 32, rowFalls s.config.wrapY vy r py.val = decide (py = y)) →
        rowReached s vy (r + 1) →
        Drawn s (drawRows (drawRow s (byteAt s (s.i.toNat + r)) vx y) vx vy (r + 1) n)
          (rowsBit s vx vy r (n + 1)) := by
      intro y hy hreach
      have hd := drawRow_drawn s (byteAt s (s.i.toNat + r)) vx y
      have hsame : ∀ q, rowReached (drawRow s (byteAt s (s.i.toNat + r)) vx y) vy q ↔ rowReached s vy q := by
        obtain ⟨v, fb, e⟩ := hd.shape
        intro q; rw [e]; exact Iff.rfl
      have hi : (drawRow s (byteAt s (s.i.toNat + r)) vx y).i = s.i := by
        obtain ⟨v, fb, e⟩ := hd.shape
        rw [e]
      have hrest := ih (drawRow s (byteAt s (s.i.toNat + r)) vx y) (r + 1) (by omega) (by
        intro q hq hreach'
        rw [hsame, show r + 1 + q = r + (q + 1) by omega] at hreach'
        rw [hi, show r + 1 + q = r + (q + 1) by omega]
        exact hr (q + 1) (by omega) hreach') ((hsame _).mpr hreach)
      refine ((hd.trans hrest) ?_).congr fun px py => ?_
      · -- the at most 32 rows of a sprite are apart
        intro px py hb
        rw [hd.rowsBit_eq]
        simp only [Bool.and_eq_true, decide_eq_true_eq] at hb
        have hfall := hy py
        rw [hb.1, decide_eq_true rfl] at hfall
        simp only [rowsBit, List.any_eq_false, List.mem_range, Bool.and_eq_true, not_and]
        intro q hq hf
        exfalso
        unfold rowFalls at hf hfall
        split at hf
        · next hw =>
          rw [if_pos hw] at hfall
          simp only [beq_iff_eq] at hf hfall
          rw [hb.1] at hf
          omega
        · next hw =>
          rw [if_neg hw] at hfall
          simp only [beq_iff_eq] at hf hfall
          rw [hb.1] at hf
          omega
      · rw [rowsBit_succ, hy py, hd.rowsBit_eq]
    simp only [drawRows, hread]
    split
    · next hw =>
      refine go _ (fun py => ?_) (.inl hw)
      rw [rowFalls, if_pos hw, Bool.eq_iff_iff, beq_iff_eq, decide_eq_true_iff, Fin.ext_iff]
      simp only [Fin.ofNat]
      exact eq_comm
    · next hw =>
      split
      · next hclip =>
        refine (Drawn.refl s).congr fun px py => ?_
        symm
        simp only [rowsBit, List.any_eq_false, List.mem_range, Bool.and_eq_true, not_and, rowFalls, if_neg hw,
          beq_iff_eq]
        intro q hq hf
        have := py.isLt
        omega
      · next hclip =>
        refine go _ (fun py => ?_) (.inr (.inr (by omega)))
        rw [rowFalls, if_neg hw, Bool.eq_iff_iff, beq_iff_eq, decide_eq_true_iff, Fin.ext_iff]
        simp only [Fin.ofNat]
        have : (vy + r) % 32 = vy + r := Nat.mod_eq_of_lt (by omega)
        rw [this]
        exact eq_comm

/-- The first reached row that is refused ends the drawing with a raise, and the rows before it are drawn as they would
be alone. -/
theorem drawRows_stop (n : Nat) (s : State) (vx vy r j : Nat) (hj : j < n)
    (hr : ∀ q, q < j → s.i.toNat + (r + q) ≤ userEnd) (hreach : rowReached s vy (r + j))
    (hn : userEnd < s.i.toNat + (r + j)) :
    drawRows s vx vy r n = refuseAccess (drawRows s vx vy r j) := by
  induction n generalizing s r j with
  | zero => omega
  | succ n ih =>
    cases j with
    | zero =>
      have : memRead s (effAddr s r) = none := by
        unfold memRead; rw [if_pos]; simpa [effAddr] using hn
      simp only [drawRows, this]
    | succ j =>
      have hread : memRead s (effAddr s r) = some (byteAt s (s.i.toNat + r)) :=
        memRead_eq (by simpa [effAddr] using hr 0 (by omega))
      have go : ∀ y : Fin 32,
          drawRows (drawRow s (byteAt s (s.i.toNat + r)) vx y) vx vy (r + 1) n =
            refuseAccess (drawRows (drawRow s (byteAt s (s.i.toNat + r)) vx y) vx vy (r + 1) j) := by
        intro y
        obtain ⟨v, fb, e⟩ := (drawRow_drawn s (byteAt s (s.i.toNat + r)) vx y).shape
        have hi : (drawRow s (byteAt s (s.i.toNat + r)) vx y).i = s.i := by rw [e]
        have hsame : ∀ q, rowReached s vy q → rowReached (drawRow s (byteAt s (s.i.toNat + r)) vx y) vy q := by
          intro q hq; rw [e]; exact hq
        refine ih _ (r + 1) j (by omega) (fun q hq => ?_) (hsame _ ?_) ?_
        · rw [hi, show r + 1 + q = r + (q + 1) by omega]; exact hr (q + 1) (by omega)
        · rw [show r + 1 + j = r + (j + 1) by omega]; exact hreach
        · rw [hi, show r + 1 + j = r + (j + 1) by omega]; exact hn
      simp only [drawRows, hread]
      split
      · exact go _
      · next hw =>
        split
        · rcases hreach with h | h | h <;> first | exact absurd h hw | omega
        · exact go _

/-- Drawing writes no register but the flag register, refused or not. -/
theorem readV_drawRows_other (n : Nat) (s : State) (vx vy r : Nat) {q : Nibble} (h : q ≠ flagReg) :
    readV (drawRows s vx vy r n) q = readV s q := by
  induction n generalizing s r with
  | zero => rfl
  | succ n ih =>
    simp only [drawRows]
    split
    · rfl
    · split
      · rw [ih, (drawRow_drawn _ _ _ _).others q h]
      · split
        · rfl
        · rw [ih, (drawRow_drawn _ _ _ _).others q h]

end Sys2Proof.Machine
end

