-- ==== Sys2Proof/Laws/Frame.lean ====
section
/-! SUPPORT. What the updates of the state leave unchanged, in the words of Safety.lean, and how such facts combine. -/

namespace Sys2Proof.Machine

/-! `SameBut` -/

theorem SameIn.refl (s : State) (c : Component) : SameIn s s c := by
  cases c <;> first | exact rfl | exact fun _ => rfl | exact ⟨rfl, rfl⟩

theorem SameBut.refl (cs : List Component) (s : State) : SameBut cs s s := fun c _ => SameIn.refl s c

theorem SameIn.trans {s t u : State} {c : Component} (h : SameIn s t c) (k : SameIn t u c) : SameIn s u c := by
  cases c <;> first
    | exact Eq.trans k h
    | exact fun a => (k a).trans (h a)
    | exact ⟨k.1.trans h.1, k.2.trans h.2⟩

theorem SameBut.trans {cs : List Component} {s t u : State} (h : SameBut cs s t) (k : SameBut cs t u) :
    SameBut cs s u := fun c hc => (h c hc).trans (k c hc)

theorem SameBut.mono {cs ds : List Component} {s t : State} (h : SameBut cs s t) (hsub : ∀ c, c ∈ cs → c ∈ ds) :
    SameBut ds s t := fun c hc => h c fun hm => hc (hsub c hm)

theorem sameBut_mem (s : State) (m : List Host.Cell) : SameBut [.mem] s { s with mem := m } := by
  intro c hc; cases c <;> first | exact absurd (by decide) hc | exact rfl | exact fun _ => rfl | exact ⟨rfl, rfl⟩

theorem sameBut_v (s : State) (v : Vector Byte 16) : SameBut [.v] s { s with v := v } := by
  intro c hc; cases c <;> first | exact absurd (by decide) hc | exact rfl | exact fun _ => rfl | exact ⟨rfl, rfl⟩

theorem sameBut_i (s : State) (w : Word) : SameBut [.i] s { s with i := w } := by
  intro c hc; cases c <;> first | exact absurd (by decide) hc | exact rfl | exact fun _ => rfl | exact ⟨rfl, rfl⟩

theorem sameBut_pc (s : State) (w : Word) : SameBut [.pc] s { s with pc := w } := by
  intro c hc; cases c <;> first | exact absurd (by decide) hc | exact rfl | exact fun _ => rfl | exact ⟨rfl, rfl⟩

theorem sameBut_sp (s : State) (w : Word) : SameBut [.sp] s { s with sp := w } := by
  intro c hc; cases c <;> first | exact absurd (by decide) hc | exact rfl | exact fun _ => rfl | exact ⟨rfl, rfl⟩

theorem sameBut_dt (s : State) (b : Byte) : SameBut [.dt] s { s with dt := b } := by
  intro c hc; cases c <;> first | exact absurd (by decide) hc | exact rfl | exact fun _ => rfl | exact ⟨rfl, rfl⟩

theorem sameBut_st (s : State) (b : Byte) : SameBut [.st] s { s with st := b } := by
  intro c hc; cases c <;> first | exact absurd (by decide) hc | exact rfl | exact fun _ => rfl | exact ⟨rfl, rfl⟩

theorem sameBut_keys (s : State) (k : Vector Bool 16) : SameBut [.keys] s { s with keys := k } := by
  intro c hc; cases c <;> first | exact absurd (by decide) hc | exact rfl | exact fun _ => rfl | exact ⟨rfl, rfl⟩

theorem sameBut_run (s : State) (r : RunState) : SameBut [.run] s { s with run := r } := by
  intro c hc; cases c <;> first | exact absurd (by decide) hc | exact rfl | exact fun _ => rfl | exact ⟨rfl, rfl⟩

theorem sameBut_fb (s : State) (fb : Vector (Vector Bool 64) 32) : SameBut [.fb] s { s with fb := fb } := by
  intro c hc; cases c <;> first | exact absurd (by decide) hc | exact rfl | exact fun _ => rfl | exact ⟨rfl, rfl⟩

theorem sameBut_err (s : State) (e : ErrLatch) : SameBut [.err] s { s with err := e } := by
  intro c hc; cases c <;> first | exact absurd (by decide) hc | exact rfl | exact fun _ => rfl | exact ⟨rfl, rfl⟩

theorem sameBut_err_faulted (s : State) (e : ErrLatch) (f : Bool) :
    SameBut [.err, .faulted] s { s with err := e, faulted := f } := by
  intro c hc; cases c <;> first | exact absurd (by decide) hc | exact rfl | exact fun _ => rfl | exact ⟨rfl, rfl⟩

theorem sameBut_random (s : State) (rs : List Byte) (n : Nat) :
    SameBut [.random] s { s with randoms := rs, draws := n } := by
  intro c hc; cases c <;> first | exact absurd (by decide) hc | exact rfl | exact fun _ => rfl

theorem sameBut_lastOpcode (s : State) (w : Word) : SameBut [.lastOpcode] s { s with lastOpcode := w } := by
  intro c hc; cases c <;> first | exact absurd (by decide) hc | exact rfl | exact fun _ => rfl | exact ⟨rfl, rfl⟩

theorem sameBut_writeV (s : State) (x : Nibble) (b : Byte) : SameBut [.v] s (writeV s x b) := sameBut_v s _

theorem sameBut_writeResultThenFlag (s : State) (x : Nibble) (a flag : Byte) :
    SameBut [.v] s (writeResultThenFlag s x a flag) := sameBut_v s _

theorem sameBut_raise (s : State) (f : FaultCode) (r : Byte) (w : Word) :
    SameBut [.err, .faulted] s (raise s f r w) := sameBut_err_faulted s _ _

theorem sameBut_takeRandom (s : State) : SameBut [.random] s (takeRandom s) := by
  unfold takeRandom
  split <;> exact sameBut_random s _ _

/-! The latch after a raise. -/

theorem latched_raise (s : State) (f : FaultCode) (r : Byte) (w : Word) : Latched (raise s f r w) (faultNumber f) w r :=
  ⟨rfl, rfl⟩

theorem latched_refuseAccess (s : State) : Latched (refuseAccess s) 3 s.lastOpcode 0 := ⟨rfl, rfl⟩

/-! Registers and memory. -/

theorem regsSameBut_writeV (s : State) (x : Nibble) (b : Byte) : RegsSameBut [x] s (writeV s x b) :=
  fun _ hr => readV_writeV_other s b (by simpa using hr)

theorem regsSameBut_writeResultThenFlag (s : State) (x : Nibble) (a flag : Byte) :
    RegsSameBut [x, 0xF#4] s (writeResultThenFlag s x a flag) := by
  intro r hr
  simp only [List.mem_cons, List.not_mem_nil, or_false, not_or] at hr
  rw [readV_writeResultThenFlag, if_neg (show ¬ r = flagReg from hr.2), if_neg hr.1]

theorem memSameOutside_setByte (s : State) (a : Nat) (b : Byte) : MemSameOutside a 1 s (setByte s a b) := by
  intro d hd
  exact byteAt_setByte_other s b (by omega)

theorem memSameOutside_setTwoBytes (s : State) (a : Nat) (b c : Byte) :
    MemSameOutside a 2 s (setByte (setByte s a b) (a + 1) c) := by
  intro d hd
  rw [byteAt_setByte_other _ _ (by omega), byteAt_setByte_other _ _ (by omega)]

end Sys2Proof.Machine
end

