-- ==== Sys2Proof/Laws/Transfer.lean ====
section
/-! SUPPORT. The block transfers `storeBytes` and `loadRegs`: what they do where nothing is refused, and where they stop
(R57). -/

namespace Sys2Proof.Machine

@[simp] theorem effAddr_setByte (s : State) (a off : Nat) (b : Byte) : effAddr (setByte s a b) off = effAddr s off := rfl

@[simp] theorem effAddr_writeV (s : State) (x : Nibble) (off : Nat) (b : Byte) :
    effAddr (writeV s x b) off = effAddr s off := rfl

theorem writable_setByte (s : State) (a d : Nat) (b : Byte) : Writable (setByte s a b) d ↔ Writable s d := Iff.rfl

/-- Whatever happens, a block store changes memory, the latch and the ghost bit only. -/
theorem storeBytes_shape (bs : List Byte) (s : State) (off : Nat) :
    ∃ m e f, storeBytes s off bs = { s with mem := m, err := e, faulted := f } := by
  induction bs generalizing s off with
  | nil => exact ⟨_, _, _, rfl⟩
  | cons b bs ih =>
    simp only [storeBytes]
    split
    · next t ht =>
      obtain ⟨-, rfl⟩ := memWrite_cases ht
      obtain ⟨m, e, f, h⟩ := ih (setByte s (effAddr s off) b) (off + 1)
      exact ⟨m, e, f, by rw [h]; rfl⟩
    · exact ⟨_, _, _, rfl⟩

/-- Where every address is accepted, the bytes stand in memory in order and nothing else is changed. -/
theorem storeBytes_ok (bs : List Byte) (s : State) (off : Nat) (hs : Memory.wf s.config s.mem)
    (hw : ∀ k, k < bs.length → Writable s (effAddr s (off + k))) :
    ∃ m, storeBytes s off bs = { s with mem := m } ∧ Memory.wf s.config m ∧
      (∀ k (h : k < bs.length), Memory.read s.config m (effAddr s (off + k)) = bs[k]) ∧
      (∀ a, a < effAddr s off ∨ effAddr s off + bs.length ≤ a → Memory.read s.config m a = byteAt s a) := by
  induction bs generalizing s off with
  | nil => exact ⟨s.mem, rfl, hs, by simp, fun _ _ => rfl⟩
  | cons b bs ih =>
    have h0 : Writable s (effAddr s off) := hw 0 (by simp)
    have hlt : effAddr s off < memSize := Nat.lt_of_le_of_lt h0.1 (by decide)
    simp only [storeBytes, memWrite_eq b h0]
    obtain ⟨m, hm, hwf, hin, hout⟩ := ih (setByte s (effAddr s off) b) (off + 1) (setByte_wf hs hlt b) (by
      intro k hk
      rw [writable_setByte, effAddr_setByte, show off + 1 + k = off + (k + 1) by omega]
      exact hw (k + 1) (by simpa using hk))
    have hadd : effAddr s (off + 1) = effAddr s off + 1 := by simp [effAddr]; omega
    refine ⟨m, by rw [hm]; rfl, hwf, fun k hk => ?_, fun a ha => ?_⟩
    · cases k with
      | zero =>
        have := hout (effAddr s off) (.inl (by rw [effAddr_setByte, hadd]; omega))
        rw [byteAt_setByte_same hs] at this
        exact this
      | succ k =>
        have := hin k (by simpa using hk)
        rw [effAddr_setByte, show off + 1 + k = off + (k + 1) by omega] at this
        simpa using this
    · have hne : a ≠ effAddr s off := by
        simp only [List.length_cons] at ha; omega
      have := hout a (by rw [effAddr_setByte, hadd]; simp only [List.length_cons] at ha; omega)
      rw [byteAt_setByte_other _ _ hne] at this
      exact this

/-- The first refused address ends the store with a raise, and the bytes before it are stored as they would be alone. -/
theorem storeBytes_stop (bs : List Byte) (s : State) (off j : Nat) (hj : j < bs.length)
    (hw : ∀ k, k < j → Writable s (effAddr s (off + k))) (hn : ¬ Writable s (effAddr s (off + j))) :
    storeBytes s off bs = refuseAccess (storeBytes s off (bs.take j)) := by
  induction bs generalizing s off j with
  | nil => simp at hj
  | cons b bs ih =>
    cases j with
    | zero =>
      have h0 : memWrite s (effAddr s off) b = none := memWrite_none b hn
      simp [storeBytes, h0]
    | succ j =>
      have h0 : Writable s (effAddr s off) := hw 0 (by simp)
      simp only [storeBytes, memWrite_eq b h0, List.take_succ_cons]
      refine ih (setByte s (effAddr s off) b) (off + 1) j (by simpa using hj) (fun k hk => ?_) ?_
      · rw [writable_setByte, effAddr_setByte, show off + 1 + k = off + (k + 1) by omega]
        exact hw (k + 1) (by omega)
      · rw [writable_setByte, effAddr_setByte, show off + 1 + j = off + (j + 1) by omega]
        exact hn

/-- Whatever happens, a block load changes the registers, the latch and the ghost bit only. -/
theorem loadRegs_shape (n : Nat) (s : State) (off : Nat) :
    ∃ v e f, loadRegs s off n = { s with v := v, err := e, faulted := f } := by
  induction n generalizing s off with
  | zero => exact ⟨_, _, _, rfl⟩
  | succ n ih =>
    simp only [loadRegs]
    split
    · next b hb =>
      obtain ⟨v, e, f, h⟩ := ih (writeV s (BitVec.ofNat 4 off) b) (off + 1)
      exact ⟨v, e, f, by rw [h]; rfl⟩
    · exact ⟨_, _, _, rfl⟩

/-- Where every address is accepted, the registers `off ..< off + n` hold the bytes in order, and nothing else is
changed. -/
theorem loadRegs_ok (n : Nat) (s : State) (off : Nat) (hn : off + n ≤ 16)
    (hr : ∀ k, k < n → effAddr s (off + k) ≤ userEnd) :
    ∃ v, loadRegs s off n = { s with v := v } ∧
      ∀ r : Nibble, readV (loadRegs s off n) r =
        if off ≤ r.toNat ∧ r.toNat < off + n then byteAt s (effAddr s r.toNat) else readV s r := by
  induction n generalizing s off with
  | zero => exact ⟨s.v, rfl, fun r => by simp only [loadRegs]; rw [if_neg]; omega⟩
  | succ n ih =>
    have h0 : effAddr s off ≤ userEnd := hr 0 (by omega)
    simp only [loadRegs, memRead_eq h0]
    obtain ⟨v, hv, hread⟩ := ih (writeV s (BitVec.ofNat 4 off) (byteAt s (effAddr s off))) (off + 1) (by omega) (by
      intro k hk
      rw [effAddr_writeV, show off + 1 + k = off + (k + 1) by omega]
      exact hr (k + 1) (by omega))
    refine ⟨v, by rw [hv]; rfl, fun r => ?_⟩
    rw [hread r, effAddr_writeV, writeV_byteAt, readV_writeV]
    have hoff : (BitVec.ofNat 4 off).toNat = off := by rw [BitVec.toNat_ofNat]; omega
    by_cases hro : r = BitVec.ofNat 4 off
    · have : r.toNat = off := by rw [hro, hoff]
      rw [if_neg (by omega), if_pos hro, if_pos (by omega), this]
    · have : r.toNat ≠ off := fun e => hro (BitVec.eq_of_toNat_eq (by rw [e, hoff]))
      rw [if_neg hro]
      by_cases hin : off + 1 ≤ r.toNat ∧ r.toNat < off + 1 + n
      · rw [if_pos hin, if_pos (by omega)]
      · rw [if_neg hin, if_neg (by omega)]

/-- The first refused address ends the load with a raise, and the registers before it hold what they would alone. -/
theorem loadRegs_stop (n : Nat) (s : State) (off j : Nat) (hj : j < n)
    (hr : ∀ k, k < j → effAddr s (off + k) ≤ userEnd) (hn : userEnd < effAddr s (off + j)) :
    loadRegs s off n = refuseAccess (loadRegs s off j) := by
  induction n generalizing s off j with
  | zero => omega
  | succ n ih =>
    cases j with
    | zero =>
      have : memRead s (effAddr s off) = none := by simp [memRead]; simpa using hn
      simp only [loadRegs, this]
    | succ j =>
      have h0 : effAddr s off ≤ userEnd := hr 0 (by omega)
      simp only [loadRegs, memRead_eq h0]
      refine ih (writeV s (BitVec.ofNat 4 off) (byteAt s (effAddr s off))) (off + 1) j (by omega) (fun k hk => ?_) ?_
      · rw [effAddr_writeV, show off + 1 + k = off + (k + 1) by omega]
        exact hr (k + 1) (by omega)
      · rw [effAddr_writeV, show off + 1 + j = off + (j + 1) by omega]
        exact hn

/-- Registers outside `off ..< off + n` are not loaded, refused or not. -/
theorem readV_loadRegs_other (n : Nat) (s : State) (off : Nat) (hn : off + n ≤ 16) {q : Nibble}
    (h : q.toNat < off ∨ off + n ≤ q.toNat) : readV (loadRegs s off n) q = readV s q := by
  induction n generalizing s off with
  | zero => rfl
  | succ n ih =>
    simp only [loadRegs]
    split
    · rw [ih _ _ (by omega) (by omega), readV_writeV_other]
      intro e
      have := congrArg BitVec.toNat e
      rw [BitVec.toNat_ofNat] at this
      omega
    · rfl

/-- A byte the checked write refuses is not stored, refused or not. -/
theorem byteAt_storeBytes_refused (bs : List Byte) (s : State) (off : Nat) {a : Nat} (h : ¬ Writable s a) :
    byteAt (storeBytes s off bs) a = byteAt s a := by
  induction bs generalizing s off with
  | nil => rfl
  | cons b bs ih =>
    simp only [storeBytes]
    split
    · next u hu =>
      obtain ⟨hw, rfl⟩ := memWrite_cases hu
      rw [ih _ _ ((writable_setByte s _ a b).not.mpr h), byteAt_setByte_other]
      rintro rfl
      exact h hw
    · rfl

theorem regBlock_length (s : State) (x : Nibble) : (regBlock s x).length = x.toNat + 1 := by
  have := x.isLt
  simp [regBlock, regCount]; omega

theorem regBlock_getElem (s : State) (x r : Nibble) (h : r.toNat < (regBlock s x).length) :
    (regBlock s x)[r.toNat] = readV s r := by
  simp [regBlock, readV]

/-- Bytes copied by the raw path inside memory stand there in order, and nothing else is changed (R262). -/
theorem rawWriteBytes_ok (bs : List Byte) (s : State) (a : Nat) (hs : Memory.wf s.config s.mem)
    (h : a + bs.length ≤ memSize) :
    ∃ m, rawWriteBytes s a bs = some { s with mem := m } ∧ Memory.wf s.config m ∧
      (∀ k (h : k < bs.length), Memory.read s.config m (a + k) = bs[k]) ∧
      (∀ d, d < a ∨ a + bs.length ≤ d → Memory.read s.config m d = byteAt s d) := by
  induction bs generalizing s a with
  | nil => exact ⟨s.mem, rfl, hs, by simp, fun _ _ => rfl⟩
  | cons b bs ih =>
    simp only [List.length_cons] at h
    have hlt : a < memSize := by omega
    simp only [rawWriteBytes, rawWrite_eq b hlt]
    obtain ⟨m, h1, h2, h3, h4⟩ := ih (setByte s a b) (a + 1) (setByte_wf hs hlt b) (by omega)
    refine ⟨m, by rw [h1]; rfl, h2, fun k hk => ?_, fun d hd => ?_⟩
    · cases k with
      | zero =>
        have := h4 a (by omega)
        rw [byteAt_setByte_same hs] at this
        exact this
      | succ k =>
        have := h3 k (by simpa using hk)
        rw [show a + 1 + k = a + (k + 1) by omega] at this
        simpa using this
    · simp only [List.length_cons] at hd
      have := h4 d (by omega)
      rw [byteAt_setByte_other _ _ (by omega)] at this
      exact this

/-- Whatever is copied, only memory changes. -/
theorem rawWriteBytes_shape (bs : List Byte) {s t : State} (a : Nat) (h : rawWriteBytes s a bs = some t) :
    ∃ m, t = { s with mem := m } := by
  induction bs generalizing s a with
  | nil => injection h with h; subst h; exact ⟨s.mem, rfl⟩
  | cons b bs ih =>
    simp only [rawWriteBytes] at h
    split at h
    · next u hu =>
      obtain ⟨-, rfl⟩ := rawWrite_cases hu
      obtain ⟨m, rfl⟩ := ih _ h
      exact ⟨m, rfl⟩
    · cases h

end Sys2Proof.Machine
end

