-- ==== Sys2Proof/Laws/Invariant.lean ====
section
/-! SUPPORT. The shared operations keep the invariant of Safety.lean, one lemma each. -/

namespace Sys2Proof.Machine

/-- A change outside memory, `SP` and the parameters keeps the invariant where `I`, `PC` and the latch stay legal. -/
theorem State.Inv.of_frame {s t : State} (h : s.Inv) (hc : t.config = s.config) (hm : t.mem = s.mem) (hsp : t.sp = s.sp)
    (hi : t.i.toNat ≤ 0xFFF) (hpc : t.pc.toNat ≤ 0x1002) (he : t.err.legal)
    (hg : t.err.valid = true → t.faulted = true) : t.Inv := by
  have hb : ∀ a, byteAt t a = byteAt s a := fun a => by simp only [byteAt, hc, hm]
  refine ⟨by rw [hc]; exact h.config, by rw [hc, hm]; exact h.memory, hi, ?_, he, hg, hpc, ?_, ?_, ?_⟩
  · obtain ⟨k, h1, h2⟩ := h.stack
    exact ⟨k, by rw [hc]; exact h1, by rw [hsp]; exact h2⟩
  · intro k hk
    rw [hsp] at hk
    rw [hb, hb]
    exact h.returns k hk
  · intro a ha
    rw [hc] at ha
    rw [hb]
    exact h.highZero a ha
  · intro hp a ha
    rw [hc] at hp
    rw [hb, hc]
    exact h.systemKept hp a ha

/-- A raise keeps it, for every fault the core raises with the reason R220 gives. -/
theorem State.Inv.raise {s : State} (h : s.Inv) (f : FaultCode) (r : Byte) (w : Word) (hf : f ≠ .clearScreenFailure)
    (hr : if f = .undefinedOperation then r ∈ [reasonFetchOutOfRange, reasonKeyIndexOutOfRange] else r = 0) :
    (raise s f r w).Inv := by
  refine h.of_frame rfl rfl rfl h.index h.pcBound (.inr ⟨rfl, ?_⟩) fun _ => rfl
  cases f <;> simp_all [Machine.raise, faultNumber]

theorem State.Inv.refuseAccess {s : State} (h : s.Inv) : (refuseAccess s).Inv := h.raise _ _ _ (by decide) (by decide)

theorem State.Inv.writeV {s : State} (h : s.Inv) (x : Nibble) (b : Byte) : (writeV s x b).Inv :=
  h.of_frame rfl rfl rfl h.index h.pcBound h.latch h.ghost

theorem State.Inv.writeI {s : State} (h : s.Inv) (w : Word) : (writeI s w).Inv :=
  h.of_frame rfl rfl rfl (by rw [writeI_toNat]; omega) h.pcBound h.latch h.ghost

theorem State.Inv.writePC {s : State} (h : s.Inv) {w : Word} (hw : w.toNat ≤ 0x1002) : (writePC s w).Inv :=
  h.of_frame rfl rfl rfl h.index hw h.latch h.ghost

/-- A byte stored in the user region keeps it. -/
theorem State.Inv.setByte {s : State} (h : s.Inv) {a : Nat} (b : Byte) (ha : Writable s a) : (setByte s a b).Inv := by
  obtain ⟨ha, hp⟩ := ha
  simp only [userEnd] at ha
  have hl : stackBase ≤ s.config.stackLimit := by simp only [Config.stackLimit]; omega
  refine ⟨h.config, setByte_wf h.memory (by simp only [memSize]; omega) b, h.index, h.stack, h.latch, h.ghost,
    h.pcBound, ?_, ?_, ?_⟩
  · intro k hk
    rw [byteAt_setByte_other, byteAt_setByte_other]
    · exact h.returns k hk
    all_goals (simp only [stackBase]; omega)
  · intro d hd
    have hd : s.config.stackLimit ≤ d := hd
    simp only [stackBase] at hl
    rw [byteAt_setByte_other _ _ (by omega)]
    exact h.highZero d hd
  · intro hp' d hd
    have := hp hp'
    rw [byteAt_setByte_other _ _ (by omega)]
    exact h.systemKept hp' d hd

theorem State.Inv.storeBytes (bs : List Byte) {s : State} (h : s.Inv) (off : Nat) : (storeBytes s off bs).Inv := by
  induction bs generalizing s off with
  | nil => exact h
  | cons b bs ih =>
    simp only [Machine.storeBytes]
    split
    · next u hu =>
      obtain ⟨hw, rfl⟩ := memWrite_cases hu
      exact ih (h.setByte b hw) _
    · exact h.refuseAccess

theorem State.Inv.loadRegs (n : Nat) {s : State} (h : s.Inv) (off : Nat) : (loadRegs s off n).Inv := by
  induction n generalizing s off with
  | zero => exact h
  | succ n ih =>
    simp only [Machine.loadRegs]
    split
    · exact ih (h.writeV _ _) _
    · exact h.refuseAccess

theorem State.Inv.drawRow {s : State} (h : s.Inv) (b : Byte) (vx : Nat) (y : Fin 32) : (drawRow s b vx y).Inv := by
  obtain ⟨v, fb, e⟩ := (drawRow_drawn s b vx y).shape
  rw [e]
  exact h.of_frame rfl rfl rfl h.index h.pcBound h.latch h.ghost

theorem State.Inv.drawRows (n : Nat) {s : State} (h : s.Inv) (vx vy r : Nat) : (drawRows s vx vy r n).Inv := by
  induction n generalizing s r with
  | zero => exact h
  | succ n ih =>
    simp only [Machine.drawRows]
    split
    · exact h.refuseAccess
    · split
      · exact ih (h.drawRow _ _ _) _
      · split
        · exact h
        · exact ih (h.drawRow _ _ _) _

/-- The legal stack sizes leave the stack inside memory (R9). -/
theorem State.Inv.stackSlots_le {s : State} (h : s.Inv) : s.config.stackSlots ≤ 48 := by
  have := h.config
  simp [Config.wellFormed, Config.stackSlotsLegal] at this
  omega

end Sys2Proof.Machine
end

