-- ==== Sys2Proof/Laws/PerInstr.lean ====
section
/-! SUPPORT. Statements for all instructions, one lemma a constructor. Family `TableRow`: the word of an instruction is
one its row of spec/opcode_table.json matches. -/

namespace Sys2Proof.Laws

/-- The `mask` and `match` columns of an instruction's row of spec/opcode_table.json. -/
def tableRow : Instr → Word × Word
  | .cls => (0xFFFF, 0x00E0)
  | .ret => (0xFFFF, 0x00EE)
  | .jp _ => (0xF000, 0x1000)
  | .call _ => (0xF000, 0x2000)
  | .seVxNn _ _ => (0xF000, 0x3000)
  | .sneVxNn _ _ => (0xF000, 0x4000)
  | .seVxVy _ _ => (0xF00F, 0x5000)
  | .sneVxVy _ _ => (0xF00F, 0x9000)
  | .ldVxNn _ _ => (0xF000, 0x6000)
  | .addVxNn _ _ => (0xF000, 0x7000)
  | .ldVxVy _ _ => (0xF00F, 0x8000)
  | .or _ _ => (0xF00F, 0x8001)
  | .and _ _ => (0xF00F, 0x8002)
  | .xor _ _ => (0xF00F, 0x8003)
  | .addVxVy _ _ => (0xF00F, 0x8004)
  | .sub _ _ => (0xF00F, 0x8005)
  | .shr _ _ => (0xF00F, 0x8006)
  | .subn _ _ => (0xF00F, 0x8007)
  | .shl _ _ => (0xF00F, 0x800E)
  | .ldINnn _ => (0xF000, 0xA000)
  | .jpV0 _ => (0xF000, 0xB000)
  | .rnd _ _ => (0xF000, 0xC000)
  | .drw _ _ _ => (0xF000, 0xD000)
  | .skp _ => (0xF0FF, 0xE09E)
  | .sknp _ => (0xF0FF, 0xE0A1)
  | .ldVxDt _ => (0xF0FF, 0xF007)
  | .ldVxK _ => (0xF0FF, 0xF00A)
  | .ldDtVx _ => (0xF0FF, 0xF015)
  | .ldStVx _ => (0xF0FF, 0xF018)
  | .addIVx _ => (0xF0FF, 0xF01E)
  | .ldFVx _ => (0xF0FF, 0xF029)
  | .ldBVx _ => (0xF0FF, 0xF033)
  | .ldMemVx _ => (0xF0FF, 0xF055)
  | .ldVxMem _ => (0xF0FF, 0xF065)

theorem nibble_and_ones (f : Nibble) : f &&& 0xF#4 = f := BitVec.and_allOnes

theorem byte_and_ones (b : Byte) : b &&& 0xFF#8 = b := BitVec.and_allOnes

/-! The mask of a format keeps its fixed fields and clears the others. -/

theorem maskA (f : Nibble) (nnn : Addr) : encodeA f nnn &&& 0xF000#16 = encodeA f 0#12 := by
  have h := BitVec.and_append (x₁ := f) (x₂ := 0xF#4) (y₁ := nnn) (y₂ := 0#12)
  rw [nibble_and_ones, BitVec.and_zero] at h
  exact h

theorem and_high (f x : Nibble) : (f ++ x) &&& (0xF#4 ++ 0#4) = f ++ 0#4 := by
  rw [BitVec.and_append, nibble_and_ones, BitVec.and_zero]

theorem and_low (y n : Nibble) : (y ++ n) &&& (0#4 ++ 0xF#4) = 0#4 ++ n := by
  rw [BitVec.and_append, nibble_and_ones, BitVec.and_zero]

theorem and_none (y n : Nibble) : (y ++ n) &&& (0#4 ++ 0#4) = 0#4 ++ 0#4 := by
  rw [BitVec.and_append, BitVec.and_zero, BitVec.and_zero]

theorem maskR (f x : Nibble) (nn : Byte) : encodeR f x nn &&& 0xF000#16 = encodeR f 0#4 0#8 := by
  have h := BitVec.and_append (x₁ := f ++ x) (x₂ := 0xF#4 ++ 0#4) (y₁ := nn) (y₂ := 0#8)
  rw [and_high f x, BitVec.and_zero] at h
  exact h

theorem maskRS (f x : Nibble) (nn : Byte) : encodeR f x nn &&& 0xF0FF#16 = encodeR f 0#4 nn := by
  have h := BitVec.and_append (x₁ := f ++ x) (x₂ := 0xF#4 ++ 0#4) (y₁ := nn) (y₂ := 0xFF#8)
  rw [and_high f x, byte_and_ones] at h
  exact h

theorem maskRR (f x y n : Nibble) : encodeRR f x y n &&& 0xF00F#16 = encodeRR f 0#4 0#4 n := by
  have h := BitVec.and_append (x₁ := f ++ x) (x₂ := 0xF#4 ++ 0#4) (y₁ := y ++ n) (y₂ := 0#4 ++ 0xF#4)
  rw [and_high f x, and_low y n] at h
  exact h

theorem maskD (f x y n : Nibble) : encodeRR f x y n &&& 0xF000#16 = encodeRR f 0#4 0#4 0#4 := by
  have h := BitVec.and_append (x₁ := f ++ x) (x₂ := 0xF#4 ++ 0#4) (y₁ := y ++ n) (y₂ := 0#4 ++ 0#4)
  rw [and_high f x, and_none y n] at h
  exact h

namespace TableRow

/-- The encoded word, masked, is the row's match value. -/
def Statement (i : Instr) : Prop := encode i &&& (tableRow i).1 = (tableRow i).2

theorem cls : Statement .cls := rfl
theorem ret : Statement .ret := rfl
theorem jp (nnn : Addr) : Statement (.jp nnn) := maskA 0x1#4 nnn
theorem call (nnn : Addr) : Statement (.call nnn) := maskA 0x2#4 nnn
theorem seVxNn (x : Nibble) (nn : Byte) : Statement (.seVxNn x nn) := maskR 0x3#4 x nn
theorem sneVxNn (x : Nibble) (nn : Byte) : Statement (.sneVxNn x nn) := maskR 0x4#4 x nn
theorem seVxVy (x y : Nibble) : Statement (.seVxVy x y) := maskRR 0x5#4 x y 0x0#4
theorem sneVxVy (x y : Nibble) : Statement (.sneVxVy x y) := maskRR 0x9#4 x y 0x0#4
theorem ldVxNn (x : Nibble) (nn : Byte) : Statement (.ldVxNn x nn) := maskR 0x6#4 x nn
theorem addVxNn (x : Nibble) (nn : Byte) : Statement (.addVxNn x nn) := maskR 0x7#4 x nn
theorem ldVxVy (x y : Nibble) : Statement (.ldVxVy x y) := maskRR 0x8#4 x y 0x0#4
theorem or (x y : Nibble) : Statement (.or x y) := maskRR 0x8#4 x y 0x1#4
theorem and (x y : Nibble) : Statement (.and x y) := maskRR 0x8#4 x y 0x2#4
theorem xor (x y : Nibble) : Statement (.xor x y) := maskRR 0x8#4 x y 0x3#4
theorem addVxVy (x y : Nibble) : Statement (.addVxVy x y) := maskRR 0x8#4 x y 0x4#4
theorem sub (x y : Nibble) : Statement (.sub x y) := maskRR 0x8#4 x y 0x5#4
theorem shr (x y : Nibble) : Statement (.shr x y) := maskRR 0x8#4 x y 0x6#4
theorem subn (x y : Nibble) : Statement (.subn x y) := maskRR 0x8#4 x y 0x7#4
theorem shl (x y : Nibble) : Statement (.shl x y) := maskRR 0x8#4 x y 0xE#4
theorem ldINnn (nnn : Addr) : Statement (.ldINnn nnn) := maskA 0xA#4 nnn
theorem jpV0 (nnn : Addr) : Statement (.jpV0 nnn) := maskA 0xB#4 nnn
theorem rnd (x : Nibble) (nn : Byte) : Statement (.rnd x nn) := maskR 0xC#4 x nn
theorem drw (x y n : Nibble) : Statement (.drw x y n) := maskD 0xD#4 x y n
theorem skp (x : Nibble) : Statement (.skp x) := maskRS 0xE#4 x 0x9E#8
theorem sknp (x : Nibble) : Statement (.sknp x) := maskRS 0xE#4 x 0xA1#8
theorem ldVxDt (x : Nibble) : Statement (.ldVxDt x) := maskRS 0xF#4 x 0x07#8
theorem ldVxK (x : Nibble) : Statement (.ldVxK x) := maskRS 0xF#4 x 0x0A#8
theorem ldDtVx (x : Nibble) : Statement (.ldDtVx x) := maskRS 0xF#4 x 0x15#8
theorem ldStVx (x : Nibble) : Statement (.ldStVx x) := maskRS 0xF#4 x 0x18#8
theorem addIVx (x : Nibble) : Statement (.addIVx x) := maskRS 0xF#4 x 0x1E#8
theorem ldFVx (x : Nibble) : Statement (.ldFVx x) := maskRS 0xF#4 x 0x29#8
theorem ldBVx (x : Nibble) : Statement (.ldBVx x) := maskRS 0xF#4 x 0x33#8
theorem ldMemVx (x : Nibble) : Statement (.ldMemVx x) := maskRS 0xF#4 x 0x55#8
theorem ldVxMem (x : Nibble) : Statement (.ldVxMem x) := maskRS 0xF#4 x 0x65#8

end TableRow

end Sys2Proof.Laws
end

