-- ==== Sys2Proof/Laws/Step.lean ====
section
/-! SUPPORT. What a step, a tick and a program load can do, said once. -/

namespace Sys2Proof.Machine

/-- A step is a tick or the first host operation asked for (log 4). -/
theorem step_cases {s t : State} (h : step s = .next t) :
    (s.pending = [] ∧ tick s = .next t) ∨
      ∃ op rest, s.pending = op :: rest ∧ performHostOp op { s with pending := rest } = .next t := by
  unfold step at h
  split at h
  · next hp => exact .inl ⟨hp, h⟩
  · next op rest hp => exact .inr ⟨op, rest, hp, h⟩

/-- A tick waits, or raises at fetch, or raises at decode, or runs the handler (R83). -/
theorem tick_cases {s t : State} (h : tick s = .next t) :
    (∃ x, s.run = .awaitingKey x ∧ t = s) ∨
    (s.run = .running ∧ fetchedWord s = none ∧ t = raise s .undefinedOperation reasonFetchOutOfRange s.pc) ∨
    (s.run = .running ∧ ∃ w, fetchedWord s = some w ∧
      ((∃ e, decode w = .error e ∧ t = raise (afterFetch s w) .invalidOpcode 0 w) ∨
       (∃ i, decode w = .ok i ∧ exec i (afterFetch s w) = .next t))) := by
  unfold tick at h
  split at h
  · next x hx => exact .inl ⟨x, hx, by injection h with h; exact h.symm⟩
  · next hr =>
    split at h
    · next hf => exact .inr (.inl ⟨hr, hf, by injection h with h; exact h.symm⟩)
    · next w hf =>
      refine .inr (.inr ⟨hr, w, hf, ?_⟩)
      unfold runWord at h
      split at h
      · next i hd => exact .inr ⟨i, hd, h⟩
      · next e hd => exact .inl ⟨e, hd, by injection h with h; exact h.symm⟩

/-- A load raises, or changes memory only (R262). -/
theorem loadProgram_cases {s t : State} {buf : List Byte} (h : loadProgram s buf = .next t) :
    (s.config.maxProgramSize < buf.length ∧ t = raise s .loadBufferTooLarge 0 0) ∨
    (buf.length ≤ s.config.maxProgramSize ∧ rawWriteBytes s userBase buf = some t ∧ ∃ m, t = { s with mem := m }) := by
  unfold loadProgram at h
  split at h
  · next hl => exact .inl ⟨hl, by injection h with h; exact h.symm⟩
  · next hl =>
    split at h
    · next u hu =>
      injection h with h; subst h
      exact .inr ⟨Nat.le_of_not_lt hl, hu, rawWriteBytes_shape _ _ hu⟩
    · cases h

/-- A key-down while running presses the key (R240). -/
theorem keyDown_running {s : State} (k : Nibble) (h : s.run = .running) : keyDown s k = setKey s k true := by
  have : (setKey s k true).run = .running := h
  simp only [keyDown, resolveWait, this]

/-- A key-down in a wait also completes it (R241). -/
theorem keyDown_waiting {s : State} (k : Nibble) {x : Nibble} (h : s.run = .awaitingKey x) :
    keyDown s k = { writeV (setKey s k true) x (k.setWidth 8) with run := .running } := by
  have : (setKey s k true).run = .awaitingKey x := h
  simp only [keyDown, resolveWait, this]

end Sys2Proof.Machine
end

