-- ==== Sys2Proof/Laws/Timers.lean ====
section
/-! SUPPORT. What moves the timers: the host's strobe, `FX15`, `FX18` and reset, and nothing else; and what the strobes
the host delivers do (60_exceptions.md R236, R237, R253). -/

namespace Sys2Proof.Machine

/-- The two timers of `t` are those of `s`. -/
def TimersKept (s t : State) : Prop := t.dt = s.dt ∧ t.st = s.st

theorem timersKept_ite {s a b : State} (c : Prop) [Decidable c] (ha : TimersKept s a) (hb : TimersKept s b) :
    TimersKept s (if c then a else b) := by split <;> assumption

/-- An instruction leaves both timers, or is `FX15` or `FX18` (R205, R206). -/
theorem exec_timers {i : Instr} {s t : State} (h : exec i s = .next t) :
    TimersKept s t ∨ (∃ x, i = .ldDtVx x ∧ t.dt = readV s x ∧ t.st = s.st) ∨
      ∃ x, i = .ldStVx x ∧ t.st = readV s x ∧ t.dt = s.dt := by
  have store : ∀ bs, TimersKept s (storeBytes s 0 bs) := fun bs => by
    obtain ⟨m, e, f, hs⟩ := storeBytes_shape bs s 0
    rw [hs]; exact ⟨rfl, rfl⟩
  have checked : ∀ (c : Bool) (a : State), TimersKept s a →
      (if c then .next a else .next (refuseAccess s) : Result) = .next t → TimersKept s t := by
    intro c a ha h
    cases c <;> (injection h with h; subst h)
    · exact ⟨rfl, rfl⟩
    · exact ha
  have key : ∀ (x : Nibble) (f : Nibble → State), (∀ k, TimersKept s (f k)) →
      (match keyIndex (readV s x) with | none => .next (refuseKey s) | some k => .next (f k) : Result) = .next t →
      TimersKept s t := by
    intro x f hf h
    split at h <;> (injection h with h; subst h)
    · exact ⟨rfl, rfl⟩
    · exact hf _
  have skip : ∀ c : Bool, skipIf c s = .next t → TimersKept s t := by
    intro c h
    injection h with h
    subst h
    exact timersKept_ite _ ⟨rfl, rfl⟩ ⟨rfl, rfl⟩
  cases i with
  | ldDtVx x => injection h with h; subst h; exact .inr (.inl ⟨x, rfl, rfl, rfl⟩)
  | ldStVx x => injection h with h; subst h; exact .inr (.inr ⟨x, rfl, rfl, rfl⟩)
  | ret =>
    refine .inl ?_
    simp only [exec, execRet] at h
    split at h
    · injection h with h; subst h; exact ⟨rfl, rfl⟩
    · split at h
      · next w u hu =>
        obtain ⟨-, rfl, -⟩ := popWord_cases hu
        injection h with h; subst h; exact ⟨rfl, rfl⟩
      · cases h
  | call nnn =>
    refine .inl ?_
    simp only [exec, execCall] at h
    split at h
    · injection h with h; subst h; exact ⟨rfl, rfl⟩
    · split at h
      · split at h
        · next u hu =>
          obtain ⟨-, rfl⟩ := pushWord_cases hu
          injection h with h; subst h; exact ⟨rfl, rfl⟩
        · cases h
      · injection h with h; subst h; exact ⟨rfl, rfl⟩
  | jp nnn => exact .inl (checked _ (writePC s (addrWord nnn)) ⟨rfl, rfl⟩ h)
  | jpV0 nnn => exact .inl (checked _ (writePC s (BitVec.ofNat 16 (indexedTarget s nnn))) ⟨rfl, rfl⟩ h)
  | ldINnn nnn => exact .inl (checked _ (writeI s (addrWord nnn)) ⟨rfl, rfl⟩ h)
  | seVxNn x nn => exact .inl (skip _ h)
  | sneVxNn x nn => exact .inl (skip _ h)
  | seVxVy x y => exact .inl (skip _ h)
  | sneVxVy x y => exact .inl (skip _ h)
  | skp x =>
    exact .inl (key x (fun k => if keyPressed s k then skipNext s else s)
      (fun _ => timersKept_ite _ ⟨rfl, rfl⟩ ⟨rfl, rfl⟩) h)
  | sknp x =>
    exact .inl (key x (fun k => if keyPressed s k then s else skipNext s)
      (fun _ => timersKept_ite _ ⟨rfl, rfl⟩ ⟨rfl, rfl⟩) h)
  | rnd x nn =>
    injection h with h; subst h
    refine .inl ?_
    unfold takeRandom
    split <;> exact ⟨rfl, rfl⟩
  | drw x y n =>
    injection h with h; subst h
    obtain ⟨v, fb, e, f, hd⟩ := drawRows_shape n.toNat (writeV s flagReg 0) (readV s x).toNat (readV s y).toNat 0
    rw [hd]; exact .inl ⟨rfl, rfl⟩
  | ldBVx x => injection h with h; subst h; exact .inl (store _)
  | ldMemVx x => injection h with h; subst h; exact .inl (store _)
  | ldVxMem x =>
    injection h with h; subst h
    obtain ⟨v, e, f, hl⟩ := loadRegs_shape (regCount x) s 0
    rw [hl]; exact .inl ⟨rfl, rfl⟩
  | _ => injection h with h; subst h; exact .inl ⟨rfl, rfl⟩

/-- A tick leaves both timers, or runs `FX15` or `FX18`: it counts nothing down, and in a wait it does nothing, however
many ticks come (R237, R253, R265). -/
theorem tick_timers {s t : State} (h : tick s = .next t) :
    TimersKept s t ∨ s.run = .running ∧ ∃ w x, fetchedWord s = some w ∧
      (decode w = .ok (.ldDtVx x) ∨ decode w = .ok (.ldStVx x)) := by
  rcases tick_cases h with ⟨x, -, rfl⟩ | ⟨-, -, rfl⟩ | ⟨hr, w, hf, ⟨e, -, rfl⟩ | ⟨i, hd, hi⟩⟩
  · exact .inl ⟨rfl, rfl⟩
  · exact .inl ⟨rfl, rfl⟩
  · exact .inl ⟨rfl, rfl⟩
  · rcases exec_timers hi with hk | ⟨x, rfl, -⟩ | ⟨x, rfl, -⟩
    · exact .inl hk
    · exact .inr ⟨hr, w, x, hf, .inl hd⟩
    · exact .inr ⟨hr, w, x, hf, .inr hd⟩

/-- A host operation that is no strobe, no reset and no tick leaves both timers (R236, R237). -/
theorem performHostOp_timers {op : HostOp} {s t : State} (h : performHostOp op s = .next t)
    (h1 : op ≠ .decrementTimers) (h2 : op ≠ .reset) (h3 : op ≠ .tick) : TimersKept s t := by
  cases op with
  | decrementTimers => exact absurd rfl h1
  | reset => exact absurd rfl h2
  | tick => exact absurd rfl h3
  | loadProgram buf =>
    rcases loadProgram_cases h with ⟨-, rfl⟩ | ⟨-, -, m, rfl⟩ <;> exact ⟨rfl, rfl⟩
  | keyDown k =>
    injection h with h; subst h
    unfold keyDown resolveWait
    split <;> exact ⟨rfl, rfl⟩
  | _ => injection h with h; subst h; exact ⟨rfl, rfl⟩

/-- A step moves a timer only where the host strobes or resets, or where a tick runs `FX15` or `FX18`. So `DT` falls in a
program that only reads it just when the host strobes (R253). -/
theorem step_timers {s t : State} (h : step s = .next t) :
    TimersKept s t ∨ (∃ rest, s.pending = .decrementTimers :: rest ∨ s.pending = .reset :: rest) ∨
      s.run = .running ∧ ∃ w x, fetchedWord s = some w ∧
        (decode w = .ok (.ldDtVx x) ∨ decode w = .ok (.ldStVx x)) := by
  rcases step_cases h with ⟨-, h⟩ | ⟨op, rest, hp, h⟩
  · rcases tick_timers h with hk | hk
    · exact .inl hk
    · exact .inr (.inr hk)
  · by_cases h1 : op = .decrementTimers
    · subst h1; exact .inr (.inl ⟨rest, .inl hp⟩)
    by_cases h2 : op = .reset
    · subst h2; exact .inr (.inl ⟨rest, .inr hp⟩)
    by_cases h3 : op = .tick
    · subst h3
      rcases tick_timers h with hk | hk
      · exact .inl hk
      · exact .inr (.inr hk)
    · have hk := performHostOp_timers h h1 h2 h3
      exact .inl hk

/-- Strobes the host delivers one after another, running or waiting: `DT` and `ST` fall by as many, down to 0, and are
0 once there are enough of them (R236, R237). That the host delivers them is the fairness premise of R253. -/
theorem run_strobes (n : Nat) (s : State) (h : s.pending = List.replicate n .decrementTimers) :
    ∃ t, Sys2Proof.core.run n s = .next t ∧ t.dt.toNat = s.dt.toNat - n ∧ t.st.toNat = s.st.toNat - n := by
  induction n generalizing s with
  | zero => exact ⟨s, rfl, rfl, rfl⟩
  | succ n ih =>
    rw [List.replicate_succ] at h
    have hs : Sys2Proof.core.step s =
        .next (decrementTimers { s with pending := List.replicate n .decrementTimers }) := by
      show step s = _
      simp only [step, h, performHostOp]; rfl
    obtain ⟨t, h1, h2, h3⟩ := ih (decrementTimers { s with pending := List.replicate n .decrementTimers }) rfl
    refine ⟨t, ?_, ?_, ?_⟩
    · simp only [Host.Core.run, hs]; exact h1
    · rw [h2]; show (countDown s.dt).toNat - n = _; rw [countDown_toNat]; omega
    · rw [h3]; show (countDown s.st).toNat - n = _; rw [countDown_toNat]; omega

end Sys2Proof.Machine
end

