-- ==== Sys2Proof/Tests/Slice0.lean ====
section
/-! SUPPORT. Tests. Expected results are from spec/95_test_vectors.md (L1.n, L2.s.n) or the encodings of 30_encoding.md
R85 and R93; and for each statement with hypotheses a witness that meets them. -/

namespace Sys2Proof.Tests

open Sys2Proof.Machine

/-! A small machine: the defaults of R9 with `WRAP_Y` given. -/

def cfg (wrap : Bool) : Config := { Config.default with wrapY := wrap }

/-- After reset, rows clipped. -/
def s0 : State := State.resetWith (cfg false)

/-- After reset, rows wrapped. -/
def s0w : State := State.resetWith (cfg true)

/-- Registers as listed. -/
def regs (s : State) : List (Nibble × Byte) → State
  | [] => s
  | (x, b) :: l => regs (writeV s x b) l

/-- Bytes from an address on. -/
def bytes (s : State) (a : Nat) : List Byte → State
  | [] => s
  | b :: l => bytes (setByte s a b) (a + 1) l

/-- One tick of the word `w` put at `PC`, and what `f` reads after it. -/
def after {α : Type} (s : State) (w : Nat) (f : State → α) : Option α :=
  match step (s.withFetchWord 16 w) with
  | .next t => some (f t)
  | _ => none

/-- One host operation, and what `f` reads after it. -/
def host {α : Type} (s : State) (op : HostOp) (f : State → α) : Option α :=
  match step { s with pending := [op] } with
  | .next t => some (f t)
  | _ => none

/-! The checks of WellFormed refuse what is ill-formed (R9, D2, D3, R56). -/

theorem test_wellFormed_default : Config.default.wellFormed = true := by decide
theorem test_wellFormed_refuses_no_slot : Config.wellFormed { cfg false with stackSlots := 0 } = false := by decide
theorem test_wellFormed_refuses_49_slots : Config.wellFormed { cfg false with stackSlots := 49 } = false := by decide
theorem test_wellFormed_takes_48_slots : Config.wellFormed { cfg false with stackSlots := 48 } = true := by decide
theorem test_wellFormed_refuses_3233_bytes : Config.wellFormed { cfg false with maxProgramSize := 3233 } = false := by
  decide
theorem test_wellFormed_takes_3232_bytes : Config.wellFormed { cfg false with maxProgramSize := 3232 } = true := by
  decide

/-! Decoding: a word of every constructor, written out in binary from R85 and R93. -/

theorem test_decode_flow :
    decode 0b0000_0000_1110_0000 = .ok .cls ∧ decode 0b0000_0000_1110_1110 = .ok .ret ∧
    decode 0b0001_1010_1011_1100 = .ok (.jp 0xABC) ∧ decode 0b0010_1010_1011_1100 = .ok (.call 0xABC) ∧
    decode 0b1011_1010_1011_1100 = .ok (.jpV0 0xABC) ∧
    decode 0b0011_1010_1011_1100 = .ok (.seVxNn 0xA 0xBC) ∧ decode 0b0100_1010_1011_1100 = .ok (.sneVxNn 0xA 0xBC) ∧
    decode 0b0101_1010_1011_0000 = .ok (.seVxVy 0xA 0xB) ∧ decode 0b1001_1010_1011_0000 = .ok (.sneVxVy 0xA 0xB) := by
  decide

theorem test_decode_alu :
    decode 0b0110_1010_1011_1100 = .ok (.ldVxNn 0xA 0xBC) ∧ decode 0b0111_1010_1011_1100 = .ok (.addVxNn 0xA 0xBC) ∧
    decode 0b1000_1010_1011_0000 = .ok (.ldVxVy 0xA 0xB) ∧ decode 0b1000_1010_1011_0001 = .ok (.or 0xA 0xB) ∧
    decode 0b1000_1010_1011_0010 = .ok (.and 0xA 0xB) ∧ decode 0b1000_1010_1011_0011 = .ok (.xor 0xA 0xB) ∧
    decode 0b1000_1010_1011_0100 = .ok (.addVxVy 0xA 0xB) ∧ decode 0b1000_1010_1011_0101 = .ok (.sub 0xA 0xB) ∧
    decode 0b1000_1010_1011_0110 = .ok (.shr 0xA 0xB) ∧ decode 0b1000_1010_1011_0111 = .ok (.subn 0xA 0xB) ∧
    decode 0b1000_1010_1011_1110 = .ok (.shl 0xA 0xB) ∧ decode 0b1100_1010_1011_1100 = .ok (.rnd 0xA 0xBC) := by
  decide

theorem test_decode_index_display_keys :
    decode 0b1010_1010_1011_1100 = .ok (.ldINnn 0xABC) ∧ decode 0b1101_1010_1011_1100 = .ok (.drw 0xA 0xB 0xC) ∧
    decode 0b1110_1010_1001_1110 = .ok (.skp 0xA) ∧ decode 0b1110_1010_1010_0001 = .ok (.sknp 0xA) ∧
    decode 0b1111_1010_0000_0111 = .ok (.ldVxDt 0xA) ∧ decode 0b1111_1010_0000_1010 = .ok (.ldVxK 0xA) ∧
    decode 0b1111_1010_0001_0101 = .ok (.ldDtVx 0xA) ∧ decode 0b1111_1010_0001_1000 = .ok (.ldStVx 0xA) ∧
    decode 0b1111_1010_0001_1110 = .ok (.addIVx 0xA) ∧ decode 0b1111_1010_0010_1001 = .ok (.ldFVx 0xA) ∧
    decode 0b1111_1010_0011_0011 = .ok (.ldBVx 0xA) ∧ decode 0b1111_1010_0101_0101 = .ok (.ldMemVx 0xA) ∧
    decode 0b1111_1010_0110_0101 = .ok (.ldVxMem 0xA) := by
  decide

/-- L2.1.1 to 8. -/
theorem test_decode_rejects :
    decode 0xF000 = .error (.invalidOpcode 0xF000) ∧ decode 0x0000 = .error (.invalidOpcode 0x0000) ∧
    decode 0x0123 = .error (.invalidOpcode 0x0123) ∧ decode 0x01E0 = .error (.invalidOpcode 0x01E0) ∧
    decode 0x5121 = .error (.invalidOpcode 0x5121) ∧ decode 0x9121 = .error (.invalidOpcode 0x9121) ∧
    decode 0x8128 = .error (.invalidOpcode 0x8128) ∧ decode 0xE29F = .error (.invalidOpcode 0xE29F) := by
  decide

theorem test_decodeBytes : decodeBytes [0x61, 0x02, 0x99] = .ok (.ldVxNn 1 0x02, [0x99]) := by decide
theorem test_decodeBytes_short : decodeBytes [0x61] = .error .tooShort := by decide
theorem test_decodeTableWord : decodeTableWord 16 0x6102 = some (.ldVxNn 1 0x02) := by decide
theorem test_decodeTableWord_refuses : decodeTableWord 16 0xFFFF = none := by decide

/-! Fetch, and the two faults before a handler (L1.3, L1.12, L2.1). -/

theorem test_fetch : after s0 0x6102 (fun t => (t.pc, t.lastOpcode, readV t 1)) = some (0x202, 0x6102, 0x02) := by decide
theorem test_invalid_opcode : after s0 0xFFFF (fun t => (t.err, t.pc)) = some (⟨true, 4, 0xFFFF, 0⟩, 0x202) := by decide
theorem test_fetch_out_of_range :
    (match step { s0 with pc := 0xFFF } with | .next t => some (t.err, t.pc) | _ => none) =
      some (⟨true, 7, 0x0FFF, 1⟩, 0xFFF) := by decide
theorem test_fetch_at_end : after { s0 with pc := 0xFFE } 0x0000 (fun t => (t.err.code, t.pc)) = some (4, 0x1000) := by
  decide
theorem test_fetch_odd : after { s0 with pc := 0x201 } 0x6102 (fun t => (readV t 1, t.pc)) = some (0x02, 0x203) := by
  decide

/-! Flow (L2.2). -/

theorem test_jp : after s0 0x1E9F (fun t => (t.pc, t.err.valid)) = some (0xE9F, false) := by decide
theorem test_jp_refused : after s0 0x1EA0 (fun t => (t.pc, t.err)) = some (0x202, ⟨true, 3, 0x1EA0, 0⟩) := by decide
theorem test_call :
    after { s0 with pc := 0x204 } 0x2300 (fun t => (t.pc, t.sp, byteAt t 0xEA0, byteAt t 0xEA1)) =
      some (0x300, 0xEA2, 0x02, 0x06) := by decide
theorem test_call_overflow_first :
    after { s0 with sp := 0xEB8 } 0x2EA0 (fun t => (t.pc, t.sp, t.err)) = some (0x202, 0xEB8, ⟨true, 1, 0x2EA0, 0⟩) := by
  decide
theorem test_ret_underflow : after s0 0x00EE (fun t => (t.pc, t.sp, t.err)) = some (0x202, 0xEA0, ⟨true, 2, 0xEE, 0⟩) := by
  decide
theorem test_ret :
    after (bytes { s0 with sp := 0xEA2 } 0xEA0 [0x02, 0x06]) 0x00EE (fun t => (t.pc, t.sp, byteAt t 0xEA1)) =
      some (0x206, 0xEA0, 0x06) := by decide
theorem test_se_nn : after (regs s0 [(3, 0x42)]) 0x3342 (·.pc) = some 0x204 := by decide
theorem test_se_nn_end :
    after { s0 with pc := 0xFFE } 0x3000 (fun t => (t.pc, t.err.valid)) = some (0x1002, false) := by decide
theorem test_sne_nn : after (regs s0 [(3, 0x41)]) 0x4342 (·.pc) = some 0x204 := by decide
theorem test_sne_nn_not : after (regs s0 [(3, 0x42)]) 0x4342 (·.pc) = some 0x202 := by decide
theorem test_se_vy : after (regs s0 [(1, 7), (2, 7)]) 0x5120 (·.pc) = some 0x204 := by decide
theorem test_sne_vy : after (regs s0 [(1, 7), (2, 8)]) 0x9120 (·.pc) = some 0x204 := by decide
theorem test_sne_vy_same : after s0 0x9110 (·.pc) = some 0x202 := by decide
theorem test_jp_v0 : after (regs s0 [(0, 0x10)]) 0xB300 (·.pc) = some 0x310 := by decide
theorem test_jp_v0_unwrapped :
    after (regs s0 [(0, 0x01)]) 0xBFFF (fun t => (t.pc, t.err.code)) = some (0x202, 3) := by decide

/-! Loads and the ALU (L1.4 to L1.6, L2.3). -/

theorem test_add_nn : after (regs s0 [(2, 0xFF), (0xF, 0x33)]) 0x7202 (fun t => (readV t 2, readV t 0xF)) =
    some (0x01, 0x33) := by decide
theorem test_mov : after (regs s0 [(4, 0x5A)]) 0x8340 (fun t => (readV t 3, readV t 4)) = some (0x5A, 0x5A) := by decide
theorem test_or : after (regs s0 [(1, 0xF0), (2, 0x0F), (0xF, 0x77)]) 0x8121 (fun t => (readV t 1, readV t 0xF)) =
    some (0xFF, 0x77) := by decide
theorem test_and : after (regs s0 [(1, 0xF0), (2, 0x3F), (0xF, 0x77)]) 0x8122 (fun t => (readV t 1, readV t 0xF)) =
    some (0x30, 0x77) := by decide
theorem test_xor : after (regs s0 [(1, 0xF0), (2, 0x3C), (0xF, 0x77)]) 0x8123 (fun t => (readV t 1, readV t 0xF)) =
    some (0xCC, 0x77) := by decide
theorem test_add_carry : after (regs s0 [(1, 0xFF), (2, 0xFF)]) 0x8124 (fun t => (readV t 1, readV t 2, readV t 0xF)) =
    some (0xFE, 0xFF, 1) := by decide
theorem test_add_into_vf : after (regs s0 [(1, 0x01), (0xF, 0x10)]) 0x8F14 (readV · 0xF) = some 0 := by decide
theorem test_sub_borrow : after (regs s0 [(1, 0x01), (2, 0x02)]) 0x8125 (fun t => (readV t 1, readV t 0xF)) =
    some (0xFF, 0) := by decide
theorem test_sub_equal : after (regs s0 [(1, 0x07), (2, 0x07)]) 0x8125 (fun t => (readV t 1, readV t 0xF)) =
    some (0x00, 1) := by decide
theorem test_shr : after (regs s0 [(1, 0x80), (0xA, 0x55)]) 0x81A6 (fun t => (readV t 1, readV t 0xA, readV t 0xF)) =
    some (0x40, 0x55, 0) := by decide
theorem test_shr_vf : after (regs s0 [(0xF, 0x03)]) 0x8F06 (readV · 0xF) = some 1 := by decide
theorem test_subn : after (regs s0 [(1, 0x02), (2, 0x01)]) 0x8127 (fun t => (readV t 1, readV t 0xF)) =
    some (0xFF, 0) := by decide
theorem test_subn_vf : after (regs s0 [(1, 0x05), (0xF, 0x03)]) 0x8F17 (readV · 0xF) = some 1 := by decide
theorem test_shl : after (regs s0 [(2, 0xF0)]) 0x820E (fun t => (readV t 2, readV t 0xF)) = some (0xE0, 1) := by decide
theorem test_rnd : after { s0 with randoms := [0xAB, 0x01] } 0xC30F (fun t => (readV t 3, t.randoms)) =
    some (0x0B, [0x01]) := by decide

/-! Index and memory (L1.9, L1.10, L2.4). -/

theorem test_ld_i : after s0 0xA300 (·.i) = some 0x300 := by decide
theorem test_ld_i_refused : after { s0 with i := 0x123 } 0xAEA0 (fun t => (t.i, t.err.code)) = some (0x123, 3) := by
  decide
theorem test_add_i : after (regs { s0 with i := 0x300 } [(5, 0x10), (0xF, 0x44)]) 0xF51E (fun t => (t.i, readV t 0xF)) =
    some (0x310, 0x44) := by decide
theorem test_add_i_wraps : after (regs { s0 with i := 0xFFF } [(5, 0x01)]) 0xF51E (·.i) = some 0x000 := by decide
theorem test_ld_f : after (regs s0 [(0, 0x0A)]) 0xF029 (·.i) = some 0x032 := by decide
theorem test_ld_f_whole : after (regs s0 [(0, 0xFF)]) 0xF029 (·.i) = some 0x4FB := by decide
theorem test_bcd : after (regs { s0 with i := 0x300 } [(1, 0xF9)]) 0xF133
    (fun t => (byteAt t 0x300, byteAt t 0x301, byteAt t 0x302, t.i)) = some (2, 4, 9, 0x300) := by decide
theorem test_bcd_refused : after (regs { s0 with i := 0xE9E } [(1, 0x7B)]) 0xF133
    (fun t => (byteAt t 0xE9E, byteAt t 0xE9F, byteAt t 0xEA0, t.err)) = some (1, 2, 0, ⟨true, 3, 0xF133, 0⟩) := by decide
theorem test_store : after (regs { s0 with i := 0x300 } [(0, 1), (1, 2), (2, 3), (3, 4)]) 0xF255
    (fun t => (byteAt t 0x300, byteAt t 0x301, byteAt t 0x302, byteAt t 0x303, t.i)) = some (1, 2, 3, 0, 0x300) := by
  decide
theorem test_store_protected : after (regs { s0 with i := 0x1FF } [(0, 0xF9)]) 0xF055
    (fun t => (byteAt t 0x1FF, t.err.code)) = some (0, 3) := by decide
theorem test_load : after (regs (bytes { s0 with i := 0x300 } 0x300 [9, 8, 7, 6]) [(3, 0x44)]) 0xF265
    (fun t => (readV t 0, readV t 1, readV t 2, readV t 3)) = some (9, 8, 7, 0x44) := by decide
theorem test_load_refused : after (regs (bytes { s0 with i := 0xE9E } 0xE9E [0xAA, 0xBB]) [(2, 0x33), (3, 0x44)]) 0xF365
    (fun t => (readV t 0, readV t 1, readV t 2, readV t 3, t.err.code)) = some (0xAA, 0xBB, 0x33, 0x44, 3) := by decide

/-! Display (L2.5). -/

theorem test_cls : after (regs (togglePixel s0 3 3) [(0xF, 9)]) 0x00E0 (fun t => (pixel t 3 3, readV t 0xF)) =
    some (false, 9) := by decide

/-- L2.5.2: row 1 is clipped. -/
theorem test_drw_clips : after (regs (bytes { s0 with i := 0x300 } 0x300 [0xFF, 0x81]) [(0, 60), (1, 31)]) 0xD012
    (fun t => (pixel t 60 31, pixel t 3 31, pixel t 4 31, pixel t 60 0, readV t 0xF)) =
    some (true, true, false, false, 0) := by decide

/-- L2.5.3: row 1 wraps. -/
theorem test_drw_wraps : after (regs (bytes { s0w with i := 0x300 } 0x300 [0xFF, 0x81]) [(0, 60), (1, 31)]) 0xD012
    (fun t => (pixel t 60 31, pixel t 60 0, pixel t 3 0, pixel t 61 0, readV t 0xF)) =
    some (true, true, true, false, 0) := by decide

/-! Keys and timers (L2.6). -/

theorem test_skp : after (regs (setKey s0 5 true) [(2, 5)]) 0xE29E (·.pc) = some 0x204 := by decide
theorem test_skp_out_of_range : after (regs s0 [(2, 0x10)]) 0xE29E (fun t => (t.pc, t.err)) =
    some (0x202, ⟨true, 7, 0xE29E, 2⟩) := by decide
theorem test_sknp : after (regs s0 [(2, 5)]) 0xE2A1 (·.pc) = some 0x204 := by decide
theorem test_sknp_not : after (regs (setKey s0 5 true) [(2, 5)]) 0xE2A1 (·.pc) = some 0x202 := by decide
theorem test_ld_vx_dt : after { s0 with dt := 0x3C } 0xF307 (readV · 3) = some 0x3C := by decide
theorem test_ld_dt_vx : after (regs s0 [(3, 0x3C)]) 0xF315 (fun t => (t.dt, t.st)) = some (0x3C, 0) := by decide
theorem test_ld_st_vx : after (regs s0 [(3, 0x02)]) 0xF318 (fun t => (t.dt, t.st)) = some (0, 0x02) := by decide
theorem test_ld_vx_k : after s0 0xF50A (fun t => (t.run, t.pc, readV t 5)) = some (.awaitingKey 5, 0x202, 0) := by decide
theorem test_key_down : host { s0 with run := .awaitingKey 5 } (.keyDown 0xB)
    (fun t => (keyPressed t 0xB, readV t 5, t.run)) = some (true, 0x0B, .running) := by decide
theorem test_key_up : host { setKey s0 0xB true with run := .awaitingKey 5 } (.keyUp 0xB)
    (fun t => (keyPressed t 0xB, t.run)) = some (false, .awaitingKey 5) := by decide
theorem test_strobe : host { s0 with dt := 2 } .decrementTimers (fun t => (t.dt, t.st)) = some (1, 0) := by decide

/-! The latch, reset, load (L1.1, L1.2, L2.7). -/

/-- L2.7.1: an instruction that succeeds leaves the latch. -/
theorem test_latch_kept : after (raise s0 .invalidOpcode 0 0xFFFF) 0x6102 (fun t => (readV t 1, t.err.code)) =
    some (2, 4) := by decide
theorem test_latch_overwritten : after (raise s0 .stackOverflow 0 0x2200) 0xFFFF (fun t => t.err.code) = some 4 := by decide
theorem test_clear_error : host (raise s0 .stackOverflow 0 0x2200) .clearError (fun t => (t.err, t.faulted)) =
    some (.empty, true) := by decide
theorem test_reset : host (regs { raise s0 .stackOverflow 0 0x2200 with run := .awaitingKey 1, pc := 0x400 } [(1, 9)]) .reset
    (fun t => (t.run, t.pc, readV t 1, t.err, byteAt t 0, byteAt t 79)) = some (.running, 0x200, 0, .empty, 0xF0, 0x80) := by
  decide
theorem test_load_program : host s0 (.loadProgram [0x22, 0x00]) (fun t => (byteAt t 0x200, byteAt t 0x201, byteAt t 0x202)) =
    some (0x22, 0x00, 0x00) := by decide
theorem test_load_too_large : host { s0 with config := { cfg false with maxProgramSize := 1 } } (.loadProgram [0x22, 0x00])
    (fun t => (byteAt t 0x200, t.err)) = some (0, ⟨true, 5, 0, 0⟩) := by decide
theorem test_tick_returns : tickOutput (s0.withFetchWord 16 0x6102) = .word 0x6102 ∧
    tickOutput (s0.withFetchWord 16 0x00EE) = .fault 2 := by decide

/-! Witnesses: for each statement with hypotheses, values that meet them together, each clause at its boundary. -/

/-- One return address on the stack, a program byte in memory, the core in the called routine. -/
def inCall : State := { bytes (bytes s0 0x300 [0x00, 0xEE]) 0xEA0 [0x02, 0x06] with sp := 0xEA2, pc := 0x300 }

theorem inCall_mem : inCall.mem = [(0x301, 0xEE), (0xEA0, 0x02), (0xEA1, 0x06)] := by decide

theorem witness_EveryStepKeepsTheInvariant : inCall.Inv := by
  have quiet : ∀ a, a ≠ 0x301 → a ≠ 0xEA0 → a ≠ 0xEA1 → byteAt inCall a = resetByte inCall.config a := by
    intro a h1 h2 h3
    rw [byteAt, inCall_mem]
    refine Memory.read_of_absent fun p hp => ?_
    simp only [List.mem_cons, List.not_mem_nil, or_false] at hp
    rcases hp with rfl | rfl | rfl
    · exact h1.symm
    · exact h2.symm
    · exact h3.symm
  refine ⟨by decide, by decide, by decide, ⟨1, by decide, by decide⟩, .inl rfl, by decide, by decide, ?_, ?_, ?_⟩
  · intro k hk
    have : inCall.sp.toNat = 0xEA2 := rfl
    rw [this] at hk
    simp only [stackBase] at hk
    have : k = 0 := by omega
    subst this
    decide
  · intro a ha
    have : inCall.config.stackLimit = 0xEB8 := rfl
    rw [this] at ha
    rw [quiet a (by omega) (by omega) (by omega), resetByte, dif_neg (by omega)]
  · intro _ a ha
    simp only [userBase] at ha
    exact quiet a (by omega) (by omega) (by omega)

/-- The machine about to run `6102` at the last address a word can be fetched from. -/
def atEnd : State := bytes { s0 with pc := 0xFFE } 0xFFE [0x61, 0x02]

theorem witness_NoStepChangesTheParameters : ∃ t, step atEnd = .next t := ⟨_, rfl⟩

theorem witness_StepRunsTheDecodedInstruction : atEnd.pending = [] ∧ atEnd.run = .running ∧
    atEnd.pc.toNat + 1 < 0x1000 ∧
    decode (wordOfBytes (byteAt atEnd atEnd.pc.toNat) (byteAt atEnd (atEnd.pc.toNat + 1))) = .ok (.ldVxNn 1 2) := by decide

theorem witness_InvalidWordRaisesInvalidOpcode : s0.pending = [] ∧ s0.run = .running ∧ fetchedWord s0 = some 0 ∧
    decode 0 = .error (.invalidOpcode 0) := by decide

theorem witness_FetchPastMemoryRaises : ({ s0 with pc := 0xFFF } : State).pending = [] ∧
    ({ s0 with pc := 0xFFF } : State).run = .running ∧ 0xFFF ≤ ({ s0 with pc := 0xFFF } : State).pc.toNat := by decide

theorem witness_TickWhileAwaitingKeyChangesNothing : ({ s0 with run := .awaitingKey 5 } : State).run = .awaitingKey 5 ∧
    ({ s0 with run := .awaitingKey 5 } : State).pending = [] := ⟨rfl, rfl⟩

theorem witness_StepPerformsTheNextHostOperation :
    ({ s0 with pending := [.keyDown 3, .tick] } : State).pending = .keyDown 3 :: [.tick] := rfl

theorem witness_TickDoesNotLookAtTheLatch : ∃ t, tick atEnd = .next t := ⟨_, rfl⟩

/-- The four clauses. -/
theorem witness_TickReturnsWordOrFault :
    ({ s0 with run := .awaitingKey 5 } : State).run = .awaitingKey 5 ∧
    (({ s0 with pc := 0xFFF } : State).run = .running ∧ 0xFFF ≤ ({ s0 with pc := 0xFFF } : State).pc.toNat) ∧
    (s0.run = .running ∧ fetchedWord s0 = some 0 ∧ decode 0 = .error (.invalidOpcode 0)) ∧
    (atEnd.run = .running ∧ fetchedWord atEnd = some 0x6102 ∧ decode 0x6102 = .ok (.ldVxNn 1 2)) ∧
    ∃ t, exec (.ldVxNn 1 2) (afterFetch (clearError atEnd) 0x6102) = .next t :=
  ⟨rfl, by decide, by decide, by decide, _, rfl⟩

theorem witness_DecodeOfEncodeIsTheInstruction : (Instr.drw 0xF 0xF 0xF).wellFormed = true := rfl

theorem witness_EncodeOfDecodeIsTheWord : decode 0x81A6 = .ok (.shr 1 0xA) := by decide

/-- The last valid and the first invalid word of family 8 below its gap. -/
theorem witness_WordsOutsideTheMapAreRejected :
    (0x8007 / 4096 = 8 ∧ 0x8007 % 16 ≤ 7) ∧ 0x8008 / 4096 = 8 ∧ ¬ (0x8008 % 16 ≤ 7 ∨ 0x8008 % 16 = 0xE) := by decide

theorem witness_SkipsMoveByOneInstruction : (1 : Nibble) ≠ 0 := by decide

theorem witness_JumpsLoadTheirTarget : (0xE9F : Addr).toNat ≤ 0xE9F ∧
    (0xDA0 : Addr).toNat + (readV (regs s0 [(0, 0xFF)]) 0).toNat = 0xE9F := by decide

theorem witness_TargetsAboveTheBoundAreRefused : 0xE9F < (0xEA0 : Addr).toNat ∧
    s0.sp.toNat ≠ 0xEA0 + 2 * s0.config.stackSlots ∧
    (0xDA1 : Addr).toNat + (readV (regs s0 [(0, 0xFF)]) 0).toNat = 0xEA0 := by decide

/-- One slot left. -/
def oneLeft : State := { s0 with sp := 0xEB6, pc := 0x204 }

theorem witness_CallPushesTheReturnAddress : Memory.wf oneLeft.config oneLeft.mem ∧ oneLeft.sp.toNat + 1 < 0x1000 ∧
    oneLeft.sp.toNat ≠ 0xEA0 + 2 * oneLeft.config.stackSlots ∧ (0xE9F : Addr).toNat ≤ 0xE9F := by decide

theorem witness_CallOnAFullStackOverflows :
    ({ s0 with sp := 0xEB8 } : State).sp.toNat = 0xEA0 + 2 * ({ s0 with sp := 0xEB8 } : State).config.stackSlots := by decide

theorem witness_ReturnPopsOrUnderflows : s0.sp.toNat = 0xEA0 ∧
    (inCall.sp.toNat ≠ 0xEA0 ∧ 2 ≤ inCall.sp.toNat ∧ inCall.sp.toNat ≤ 0x1000) := by decide

theorem witness_StackOutsideMemoryStops : ((0x0001 : Word).toNat < 2 ∨ 0x1000 < (0x1001 : Word).toNat) ∧
    (0xFFF ≤ (0xFFF : Word).toNat ∧ (0xFFF : Word).toNat ≠ 0xEA0 + 2 * s0.config.stackSlots) ∧
    (0xE9F : Addr).toNat ≤ 0xE9F := by decide

theorem witness_ReturnUndoesCall : Memory.wf oneLeft.config oneLeft.mem ∧ oneLeft.config.wellFormed = true ∧
    oneLeft.spLegal ∧ oneLeft.sp.toNat ≠ 0xEA0 + 2 * oneLeft.config.stackSlots ∧ (0x300 : Addr).toNat ≤ 0xE9F ∧
    ∃ t, exec (.call 0x300) oneLeft = .next t ∧ t.sp = 0xEB8 :=
  ⟨by decide, by decide, ⟨11, by decide, by decide⟩, by decide, by decide, _, rfl, rfl⟩

theorem witness_LogicWorksBitByBit : (7 : Nat) < 8 := by decide

theorem witness_AddSplitsTheSum : (0xE : Nibble) ≠ 0xF := by decide

theorem witness_SubtractsSetNoBorrow : (0xE : Nibble) ≠ 0xF := by decide

theorem witness_ShiftsMoveOneBitOut : (0xE : Nibble) ≠ 0xF := by decide

theorem witness_RandomByteIsMaskedAndTaken : ((7 : Nat) < 8 ∧ (0x7F : Byte).getLsbD 7 = false) ∧
    ({ s0 with randoms := [0xAB] } : State).randoms = 0xAB :: [] ∧ s0.randoms = [] := by decide

theorem witness_IndexIsSetTo12Bits : (0xE9F : Addr).toNat ≤ 0xE9F := by decide

/-- The highest `I` at which three bytes are accepted, and the lowest while the system region is protected. -/
theorem witness_DecimalDigitsAreStored :
    Memory.wf s0.config s0.mem ∧ (∀ k, k < 3 → Writable { s0 with i := 0xE9D } (effAddr { s0 with i := 0xE9D } k)) ∧
    (∀ k, k < 3 → Writable { s0 with i := 0x200 } (effAddr { s0 with i := 0x200 } k)) := by
  simp only [Writable]; decide

theorem witness_RegistersAreStored :
    Memory.wf s0.config s0.mem ∧
    (∀ k, k ≤ (0xF : Nibble).toNat → Writable { s0 with i := 0xE90 } (effAddr { s0 with i := 0xE90 } k)) := by
  refine ⟨by decide, fun k hk => ?_⟩
  have hk : k ≤ 15 := hk
  have : effAddr { s0 with i := 0xE90 } k = 0xE90 + k := rfl
  rw [this]
  exact ⟨by simp only [userEnd]; omega, fun _ => by simp only [userBase]; omega⟩

/-- The bound above after one byte, and the protected region at once. -/
theorem witness_RefusedStoreKeepsEarlierBytes :
    Memory.wf s0.config s0.mem ∧
    ((∀ k, k < 1 → Writable { s0 with i := 0xE9F } (effAddr { s0 with i := 0xE9F } k)) ∧
      ¬ Writable { s0 with i := 0xE9F } (effAddr { s0 with i := 0xE9F } 1) ∧ 1 ≤ (1 : Nibble).toNat ∧ 1 < 3) ∧
    (¬ Writable { s0 with i := 0x1FF } (effAddr { s0 with i := 0x1FF } 0) ∧ 0 ≤ (0 : Nibble).toNat ∧ 0 < 3) := by
  simp only [Writable]; decide

theorem witness_RegistersAreLoaded : effAddr { s0 with i := 0xE90 } (0xF : Nibble).toNat ≤ 0xE9F := by decide

theorem witness_RefusedLoadKeepsEarlierRegisters : 1 ≤ (1 : Nibble).toNat ∧
    (∀ k, k < 1 → effAddr { s0 with i := 0xE9F } k ≤ 0xE9F) ∧ 0xE9F < effAddr { s0 with i := 0xE9F } 1 := by decide

theorem witness_LoadRestoresWhatStoreSaved : Memory.wf s0.config s0.mem ∧
    (∀ k, k ≤ (2 : Nibble).toNat → Writable { s0 with i := 0xE9D } (effAddr { s0 with i := 0xE9D } k)) ∧
    ∃ t, exec (.ldMemVx 2) { s0 with i := 0xE9D } = .next t ∧ t.i = 0xE9D := by
  refine ⟨by decide, ?_, _, rfl, rfl⟩
  simp only [Writable]; decide

/-- A sprite at the last readable byte, over a set pixel, and beside it. -/
def sprite : State := bytes (togglePixel { s0 with i := 0xE9F } 0 0) 0xE9F [0x80]

theorem witness_SpriteIsDrawnPixelByPixel :
    (∀ r, r < (1 : Nibble).toNat → rowReached sprite (readV sprite 1).toNat r → effAddr sprite r ≤ 0xE9F) ∧
    (pixel sprite 0 0 = true ∧ spriteBit sprite 0 0 1 0 0 = true) ∧
    (∀ px py, pixel s0 px py = true → spriteBit s0 0 0 1 px py = false) := by
  refine ⟨?_, by decide, fun px py h => ?_⟩
  · intro r hr _
    have : r = 0 := by simpa using hr
    subst this
    decide
  · simp [pixel, s0, State.resetWith] at h

theorem witness_RefusedSpriteRowKeepsEarlierRows :
    1 < (2 : Nibble).toNat ∧ rowReached sprite (readV sprite 1).toNat 1 ∧ (∀ r, r < 1 → effAddr sprite r ≤ 0xE9F) ∧
    0xE9F < effAddr sprite 1 ∧ (pixel sprite 0 0 = true ∧ spriteBit sprite 0 0 1 0 0 = true) :=
  ⟨by decide, .inr (.inr (by decide)), by decide, by decide, by decide⟩

theorem witness_DrawingTwiceRestoresTheScreen : (0 : Nibble) ≠ 0xF ∧ (1 : Nibble) ≠ 0xF ∧
    (∀ r, r < (1 : Nibble).toNat → rowReached sprite (readV sprite 1).toNat r → effAddr sprite r ≤ 0xE9F) :=
  ⟨by decide, by decide, witness_SpriteIsDrawnPixelByPixel.1⟩

theorem witness_KeySkipsFollowTheKey : (readV (regs s0 [(2, 15)]) 2).toNat = (15 : Nibble).toNat := by decide

theorem witness_KeyNumberAboveFifteenRaises : 15 < (readV (regs s0 [(2, 16)]) 2).toNat := by decide

theorem witness_KeyDownPressesAndEndsTheWait : s0.run = .running ∧
    ({ s0 with run := .awaitingKey 5 } : State).run = .awaitingKey 5 ∧ (0xA : Nibble) ≠ 0xB := by decide

theorem witness_KeyUpReleasesOneKey : (0xA : Nibble) ≠ 0xB := by decide

theorem witness_OnlyKeyDownOrResetEndsAWait :
    ∃ t, step { s0 with run := .awaitingKey 5, pending := [.keyDown 3] } = .next t ∧ t.run ≠ .awaitingKey 5 :=
  ⟨_, rfl, by decide⟩

/-- An image of the full size (L1.2). -/
theorem witness_LoadCopiesTheImage : Memory.wf s0.config s0.mem ∧ s0.config.maxProgramSizeLegal = true ∧
    (List.replicate 3231 (0xAA : Byte)).length ≤ s0.config.maxProgramSize :=
  ⟨by decide, by decide, by rw [List.length_replicate]; decide⟩

theorem witness_TooLargeAnImageIsRefused : s0.config.maxProgramSize < (List.replicate 3232 (0xAA : Byte)).length := by
  rw [List.length_replicate]; decide

theorem witness_InstructionsKeepToTheirFootprint : ∃ t, exec (.ldMemVx 3) { s0 with i := 0x300 } = .next t := ⟨_, rfl⟩

theorem witness_RegistersAreWrittenByTheTable : (∃ t, exec (.ldVxMem 3) { s0 with i := 0x300 } = .next t) ∧
    mayWriteReg 4 (.ldVxMem 3) = false := ⟨⟨_, rfl⟩, by decide⟩

theorem witness_NoInstructionButCallWritesARefusedAddress : (∀ nnn, Instr.ldMemVx 3 ≠ .call nnn) ∧
    (∃ t, exec (.ldMemVx 3) { s0 with i := 0xE9E } = .next t) ∧ 0xE9F < 0xEA0 ∧ s0.config.protectSystem = true :=
  ⟨fun _ h => (by cases h), ⟨_, rfl⟩, by decide, rfl⟩

theorem witness_GhostBitIsNeverCleared :
    (∃ t, step { raise s0 .stackOverflow 0 0x2200 with pending := [.reset] } = .next t) ∧
    (raise s0 .stackOverflow 0 0x2200).faulted = true ∧
    ∃ t, step s0 = .next t ∧ t.err ≠ s0.err ∧ t.err.valid = true :=
  ⟨⟨_, rfl⟩, rfl, _, rfl, by decide, rfl⟩

theorem witness_ClearScreenFailureIsNeverLatched :
    ∃ t, step { raise s0 .clearScreenFailure 0 0 with pending := [.readPixels] } = .next t ∧
      t.err.code = faultNumber .clearScreenFailure := ⟨_, rfl, rfl⟩

/-- Parked on `120A` at `0x20A`, as P1 and P6 of L3 end. -/
def parkedState : State := bytes { s0 with pc := 0x20A } 0x20A [0x12, 0x0A]

theorem witness_ParkedMachineStaysParked : parkedState.parked ∧ parkedState.pending = [] :=
  ⟨⟨rfl, rfl, by decide, 0x120A, by decide, by decide⟩, rfl⟩

theorem witness_StoredBytesAreFetched : Memory.wf s0.config s0.mem ∧
    (∃ t, memWrite s0 0x200 0x61 = some t ∧ t.pc.toNat + 1 < 0x1000 ∧ t.pc.toNat = 0x200) ∧
    (∃ t, memWrite s0 0x201 0x61 = some t ∧ t.pc.toNat + 1 < 0x1000 ∧ t.pc.toNat + 1 = 0x201) :=
  ⟨by decide, ⟨_, rfl, by decide⟩, ⟨_, rfl, by decide⟩⟩

/-- The bounds of the checked path. -/
theorem witness_CheckedPathReadsWhatItWrote : Memory.wf s0.config s0.mem ∧
    (memWrite s0 0xE9F 0x61).isSome = true ∧ (memWrite s0 0xEA0 0x61).isSome = false ∧
    (memWrite s0 0x200 0x61).isSome = true ∧ (memWrite s0 0x1FF 0x61).isSome = false ∧
    (memRead s0 0xE9F).isSome = true ∧ (memRead s0 0xEA0).isSome = false := by decide

end Sys2Proof.Tests
end

section
/-! SUPPORT. The decoder and the encoder are inverse to each other (R85, R87, R93): a word decodes to an instruction exactly
where it is that instruction's word. -/

namespace Sys2Proof

/-! A word whose leading digit, and whose fixed low bits, are known is assembled from its remaining fields. -/

theorem encodeA_of_fieldF {w : Word} {f : Nibble} (hf : fieldF w = f) : encodeA f (fieldNNN w) = w := by
  rw [← hf, encodeA_fields]

theorem encodeA_of_fieldF_fieldNNN {w : Word} {f : Nibble} {nnn : Addr} (hf : fieldF w = f) (hnnn : fieldNNN w = nnn) :
    encodeA f nnn = w := by
  rw [← hnnn, encodeA_of_fieldF hf]

theorem encodeR_of_fieldF {w : Word} {f : Nibble} (hf : fieldF w = f) : encodeR f (fieldX w) (fieldNN w) = w := by
  rw [← hf, encodeR_fields]

theorem encodeR_of_fieldF_fieldNN {w : Word} {f : Nibble} {nn : Byte} (hf : fieldF w = f) (hnn : fieldNN w = nn) :
    encodeR f (fieldX w) nn = w := by
  rw [← hnn, encodeR_of_fieldF hf]

theorem encodeRR_of_fieldF_fieldN {w : Word} {f n : Nibble} (hf : fieldF w = f) (hn : fieldN w = n) :
    encodeRR f (fieldX w) (fieldY w) n = w := by
  rw [← hf, ← hn, encodeRR_fields]

/-! Each family of the decoder gives back an instruction whose word is the one it read. -/

theorem encode_of_decode0 {w : Word} {i : Instr} (hf : fieldF w = 0x0#4) (h : decode0 w = .ok i) : encode i = w := by
  unfold decode0 at h
  split at h
  case h_3 => nomatch h
  all_goals
    next hnnn =>
      cases h
      exact encodeA_of_fieldF_fieldNNN hf (eq_ofNat_of_toNat hnnn)

theorem decodeN0_cases {w : Word} {i j : Instr} (h : decodeN0 w j = .ok i) : fieldN w = 0x0#4 ∧ i = j := by
  unfold decodeN0 at h
  split at h
  · next hn => exact ⟨eq_ofNat_of_toNat hn, (Except.ok.inj h).symm⟩
  · nomatch h

theorem encode_of_decode8 {w : Word} {i : Instr} (hf : fieldF w = 0x8#4) (h : decode8 w = .ok i) : encode i = w := by
  unfold decode8 at h
  split at h
  case h_10 => nomatch h
  all_goals
    next hn =>
      cases h
      exact encodeRR_of_fieldF_fieldN hf (eq_ofNat_of_toNat hn)

theorem encode_of_decodeE {w : Word} {i : Instr} (hf : fieldF w = 0xE#4) (h : decodeE w = .ok i) : encode i = w := by
  unfold decodeE at h
  split at h
  case h_3 => nomatch h
  all_goals
    next hnn =>
      cases h
      exact encodeR_of_fieldF_fieldNN hf (eq_ofNat_of_toNat hnn)

theorem encode_of_decodeF {w : Word} {i : Instr} (hf : fieldF w = 0xF#4) (h : decodeF w = .ok i) : encode i = w := by
  unfold decodeF at h
  split at h
  case h_10 => nomatch h
  all_goals
    next hnn =>
      cases h
      exact encodeR_of_fieldF_fieldNN hf (eq_ofNat_of_toNat hnn)

/-- The case `h_k` is the leading digit `k - 1`; `h_17` is no digit at all. -/
theorem encode_of_decode {w : Word} {i : Instr} (h : decode w = .ok i) : encode i = w := by
  unfold decode at h
  split at h
  case h_1 hf => exact encode_of_decode0 (eq_ofNat_of_toNat hf) h
  case h_2 hf | h_3 hf | h_11 hf | h_12 hf => cases h; exact encodeA_of_fieldF (eq_ofNat_of_toNat hf)
  case h_4 hf | h_5 hf | h_7 hf | h_8 hf | h_13 hf => cases h; exact encodeR_of_fieldF (eq_ofNat_of_toNat hf)
  case h_6 hf | h_10 hf =>
    obtain ⟨hn, rfl⟩ := decodeN0_cases h
    exact encodeRR_of_fieldF_fieldN (eq_ofNat_of_toNat hf) hn
  case h_9 hf => exact encode_of_decode8 (eq_ofNat_of_toNat hf) h
  case h_14 hf => cases h; exact encodeRR_of_fieldF_fieldN (eq_ofNat_of_toNat hf) rfl
  case h_15 hf => exact encode_of_decodeE (eq_ofNat_of_toNat hf) h
  case h_16 hf => exact encode_of_decodeF (eq_ofNat_of_toNat hf) h
  case h_17 => nomatch h

theorem decode_encode (i : Instr) : decode (encode i) = .ok i := by
  cases i with
  | cls | ret => rfl
  | _ => simp [encode, decode, decodeN0, decode8, decodeE, decodeF]

theorem decode_eq_ok_iff {w : Word} {i : Instr} : decode w = .ok i ↔ w = encode i :=
  ⟨fun h => (encode_of_decode h).symm, fun h => h ▸ decode_encode i⟩

end Sys2Proof
end

section
/-! PROOFS. Loads and the immediate add (41_alu.md section 2). -/

namespace Sys2Proof.Machine

/-! What the three handlers answer (R131, R132, R133). -/

theorem exec_ldVxNn (s : State) (x : Nibble) (nn : Byte) : exec (.ldVxNn x nn) s = .next (writeV s x nn) := rfl

theorem exec_addVxNn (s : State) (x : Nibble) (nn : Byte) :
    exec (.addVxNn x nn) s = .next (writeV s x (readV s x + nn)) := rfl

theorem exec_ldVxVy (s : State) (x y : Nibble) : exec (.ldVxVy x y) s = .next (writeV s x (readV s y)) := rfl

/-- A write of one register: that register holds the byte, and nothing else has changed. -/
theorem writeV_value_and_frame (s : State) (x : Nibble) (b : Byte) :
    readV (writeV s x b) x = b ∧ RegsSameBut [x] s (writeV s x b) ∧ SameBut [.v] s (writeV s x b) :=
  ⟨readV_writeV_same s x b, regsSameBut_writeV s x b, sameBut_writeV s x b⟩

/-- Settles O24: each of the three answers `writeV` on `VX`, and its word is the one it encodes to. -/
theorem loadsAndImmediateAddWriteVX : Obligations.LoadsAndImmediateAddWriteVX := by
  intro s x y nn
  refine ⟨⟨fun _ => decode_eq_ok_iff, _, exec_ldVxNn s x nn, writeV_value_and_frame s x nn⟩,
    ⟨fun _ => decode_eq_ok_iff, _, exec_addVxNn s x nn, ?_⟩,
    ⟨fun _ => decode_eq_ok_iff, _, exec_ldVxVy s x y, writeV_value_and_frame s x (readV s y)⟩⟩
  obtain ⟨hsum, hframe⟩ := writeV_value_and_frame s x (readV s x + nn)
  exact ⟨by rw [hsum, BitVec.toNat_add], hframe⟩

end Sys2Proof.Machine
end

section
/-! PROOFS. The host's key release, timer strobe and latch clear (60_exceptions.md sections 4 to 6). -/

namespace Sys2Proof.Machine

/-! What the three operations answer (R242, R236, R246). -/

theorem performHostOp_keyUp (s : State) (k : Nibble) : performHostOp (.keyUp k) s = .next (setKey s k false) := rfl

theorem performHostOp_decrementTimers (s : State) :
    performHostOp .decrementTimers s = .next (decrementTimers s) := rfl

theorem performHostOp_clearError (s : State) : performHostOp .clearError s = .next (clearError s) := rfl

/-! What the updates behind them leave unchanged. -/

theorem sameBut_setKey (s : State) (k : Nibble) (b : Bool) : SameBut [.keys] s (setKey s k b) := sameBut_keys s _

theorem sameBut_clearError (s : State) : SameBut [.err] s (clearError s) := sameBut_err s _

/-- A strobe is a write of `dt` followed by a write of `st`. -/
theorem sameBut_decrementTimers (s : State) : SameBut [.dt, .st] s (decrementTimers s) :=
  have hdt : SameBut [.dt, .st] s { s with dt := countDown s.dt } := (sameBut_dt s _).mono (by simp)
  have hst : SameBut [.dt, .st] { s with dt := countDown s.dt } (decrementTimers s) := (sameBut_st _ _).mono (by simp)
  hdt.trans hst

/-- Settles O46: releasing a key is `setKey`, which reaches one key only. -/
theorem keyUpReleasesOneKey : Obligations.KeyUpReleasesOneKey := fun s k =>
  ⟨_, performHostOp_keyUp s k, keyPressed_setKey_same s k false, fun _ hj => keyPressed_setKey_other s false hj,
    sameBut_setKey s k false⟩

/-- Settles O47: each timer is counted down by `countDown`, which as a number is truncated subtraction. -/
theorem strobeCountsBothTimersDown : Obligations.StrobeCountsBothTimersDown := fun s =>
  ⟨_, performHostOp_decrementTimers s, countDown_toNat s.dt, countDown_toNat s.st, sameBut_decrementTimers s⟩

/-- Settles O49: the latch that `clearError` leaves is `ErrLatch.empty`, whose four fields are read off. -/
theorem clearErrorEmptiesTheLatch : Obligations.ClearErrorEmptiesTheLatch := by
  intro s
  have hempty : (clearError s).err = ⟨false, 0, 0, 0⟩ := clearError_err s
  exact ⟨_, performHostOp_clearError s, congrArg ErrLatch.valid hempty, congrArg ErrLatch.code hempty,
    congrArg ErrLatch.word hempty, congrArg ErrLatch.reason hempty, sameBut_clearError s⟩

end Sys2Proof.Machine
end

section
/-! SUPPORT. What each handler answers, said once: an equation a branch, and for the handlers that can stop the machine
the list of what they can leave (40_flow.md, 42_index_memory.md section 1, 44_timers_input.md). -/

namespace Sys2Proof.Machine

/-! The stack. -/

/-- What a push leaves (R114). -/
def pushed (s : State) (w : Word) : State :=
  { setByte (setByte s s.sp.toNat (highByte w)) (s.sp.toNat + 1) (lowByte w) with sp := s.sp + 2 }

/-- What a pop into `PC` leaves (R112). -/
def popped (s : State) : State :=
  { s with
    sp := s.sp - 2, pc := wordOfBytes (byteAt s (s.sp - 2).toNat) (byteAt s ((s.sp - 2).toNat + 1)) }

theorem pushed_sp (s : State) (w : Word) : (pushed s w).sp = s.sp + 2 := rfl

theorem popped_sp (s : State) : (popped s).sp = s.sp - 2 := rfl

theorem popped_pc (s : State) :
    (popped s).pc = wordOfBytes (byteAt s (s.sp - 2).toNat) (byteAt s ((s.sp - 2).toNat + 1)) := rfl

theorem byteAt_pushed (s : State) (w : Word) (a : Nat) : byteAt (pushed s w) a =
    byteAt (setByte (setByte s s.sp.toNat (highByte w)) (s.sp.toNat + 1) (lowByte w)) a := rfl

theorem memSameOutside_pushed (s : State) (w : Word) : MemSameOutside s.sp.toNat 2 s (pushed s w) :=
  memSameOutside_setTwoBytes s s.sp.toNat _ _

theorem byteAt_pushed_high {s : State} (hs : Memory.wf s.config s.mem) (w : Word) :
    byteAt (pushed s w) s.sp.toNat = highByte w := by
  rw [byteAt_pushed, byteAt_setByte_other _ _ (by omega), byteAt_setByte_same hs]

theorem byteAt_pushed_low {s : State} (hs : Memory.wf s.config s.mem) (w : Word) (h : s.sp.toNat + 1 < memSize) :
    byteAt (pushed s w) (s.sp.toNat + 1) = lowByte w := by
  rw [byteAt_pushed, byteAt_setByte_same (setByte_wf hs (Nat.lt_of_succ_lt h) _)]

theorem pushed_wf {s : State} (hs : Memory.wf s.config s.mem) (w : Word) (h : s.sp.toNat + 1 < memSize) :
    Memory.wf (pushed s w).config (pushed s w).mem :=
  setByte_wf (setByte_wf hs (Nat.lt_of_succ_lt h) _) h _

theorem sameBut_pushed (s : State) (w : Word) : SameBut [.mem, .sp] s (pushed s w) :=
  ((sameBut_mem s _).mono (by simp)).trans ((sameBut_sp _ _).mono (by simp))

theorem sameBut_popped (s : State) : SameBut [.pc, .sp] s (popped s) :=
  have hsp : SameBut [.pc, .sp] s { s with sp := s.sp - 2 } := (sameBut_sp s _).mono (by simp)
  have hpc : SameBut [.pc, .sp] { s with sp := s.sp - 2 } (popped s) := (sameBut_pc _ _).mono (by simp)
  hsp.trans hpc

/-- The stack slots end at `0xF00` at the latest (R9, R26). -/
theorem stackLimit_le {c : Config} (hc : c.wellFormed = true) : c.stackLimit ≤ 0xF00 := by
  simp only [Config.wellFormed, Config.stackSlotsLegal, Bool.and_eq_true, decide_eq_true_eq] at hc
  simp only [Config.stackLimit, stackBase]
  omega

/-- Where the stack is not full, a whole slot is left above `SP`. -/
theorem State.spLegal.slot_left {s : State} (h : s.spLegal) (hfull : s.sp.toNat ≠ s.config.stackLimit) :
    stackBase ≤ s.sp.toNat ∧ s.sp.toNat + 2 ≤ s.config.stackLimit := by
  obtain ⟨k, hk, hsp⟩ := h
  simp only [Config.stackLimit] at hfull ⊢
  omega

/-! `RET` (R112). -/

theorem exec_ret_empty {s : State} (h : s.sp.toNat = stackBase) :
    exec .ret s = .next (raise s .stackUnderflow 0 0x00EE#16) := by
  simp [exec, execRet, h]

theorem exec_ret_pop {s : State} (h : s.sp.toNat ≠ stackBase) (hm : (s.sp - 2).toNat + 1 < memSize) :
    exec .ret s = .next (popped s) := by
  simp only [exec, execRet, if_neg h, popWord_eq hm]
  rfl

theorem exec_ret_outside {s : State} (h : s.sp.toNat ≠ stackBase) (hm : memSize ≤ (s.sp - 2).toNat + 1) :
    exec .ret s = .fault .noSuchAddress := by
  have : popWord s = none := Option.eq_none_iff_forall_ne_some.mpr
    fun _ hp => Nat.not_lt.mpr hm (popWord_cases hp).1
  simp only [exec, execRet, if_neg h, this]

theorem exec_ret_cases {s t : State} (h : exec .ret s = .next t) :
    (s.sp.toNat = stackBase ∧ t = raise s .stackUnderflow 0 0x00EE#16) ∨
      (s.sp.toNat ≠ stackBase ∧ (s.sp - 2).toNat + 1 < memSize ∧ t = popped s) := by
  by_cases hb : s.sp.toNat = stackBase
  · rw [exec_ret_empty hb] at h
    cases h
    exact .inl ⟨hb, rfl⟩
  · by_cases hm : (s.sp - 2).toNat + 1 < memSize
    · rw [exec_ret_pop hb hm] at h
      cases h
      exact .inr ⟨hb, hm, rfl⟩
    · rw [exec_ret_outside hb (Nat.le_of_not_lt hm)] at h
      cases h

/-! `CALL` (R114). -/

theorem exec_call_full {s : State} (nnn : Addr) (h : s.sp.toNat = s.config.stackLimit) :
    exec (.call nnn) s = .next (raise s .stackOverflow 0 s.lastOpcode) := by
  simp only [exec, execCall, if_pos h]

theorem exec_call_refused {s : State} {nnn : Addr} (h : s.sp.toNat ≠ s.config.stackLimit) (ht : userEnd < nnn.toNat) :
    exec (.call nnn) s = .next (refuseAccess s) := by
  simp only [exec, execCall, if_neg h, targetOk_iff, if_neg (Nat.not_le.mpr ht)]

theorem exec_call_push {s : State} {nnn : Addr} (h : s.sp.toNat ≠ s.config.stackLimit) (ht : nnn.toNat ≤ userEnd)
    (hm : s.sp.toNat + 1 < memSize) : exec (.call nnn) s = .next (writePC (pushed s s.pc) (addrWord nnn)) := by
  simp only [exec, execCall, if_neg h, targetOk_iff, if_pos ht, pushWord_eq _ hm]
  rfl

theorem exec_call_outside {s : State} {nnn : Addr} (h : s.sp.toNat ≠ s.config.stackLimit) (ht : nnn.toNat ≤ userEnd)
    (hm : memSize ≤ s.sp.toNat + 1) : exec (.call nnn) s = .fault .noSuchAddress := by
  have : pushWord s s.pc = none := Option.eq_none_iff_forall_ne_some.mpr
    fun _ hp => Nat.not_lt.mpr hm (pushWord_cases hp).1
  simp only [exec, execCall, if_neg h, targetOk_iff, if_pos ht, this]

theorem exec_call_cases {s t : State} {nnn : Addr} (h : exec (.call nnn) s = .next t) :
    (s.sp.toNat = s.config.stackLimit ∧ t = raise s .stackOverflow 0 s.lastOpcode) ∨
      (s.sp.toNat ≠ s.config.stackLimit ∧ userEnd < nnn.toNat ∧ t = refuseAccess s) ∨
      (s.sp.toNat ≠ s.config.stackLimit ∧ nnn.toNat ≤ userEnd ∧ s.sp.toNat + 1 < memSize ∧
        t = writePC (pushed s s.pc) (addrWord nnn)) := by
  by_cases hf : s.sp.toNat = s.config.stackLimit
  · rw [exec_call_full nnn hf] at h
    cases h
    exact .inl ⟨hf, rfl⟩
  by_cases ht : nnn.toNat ≤ userEnd
  · by_cases hm : s.sp.toNat + 1 < memSize
    · rw [exec_call_push hf ht hm] at h
      cases h
      exact .inr (.inr ⟨hf, ht, hm, rfl⟩)
    · rw [exec_call_outside hf ht (Nat.le_of_not_lt hm)] at h
      cases h
  · have ht := Nat.lt_of_not_le ht
    rw [exec_call_refused hf ht] at h
    cases h
    exact .inr (.inl ⟨hf, ht, rfl⟩)

/-! The three loads of a checked target (R113, R119, R160). -/

/-- A target that passes the check is taken, and one above the bound is refused (R111). -/
theorem ite_targetOk (n : Nat) (s t : State) :
    (if targetOk n then .next t else .next (refuseAccess s) : Result) =
      .next (if n ≤ userEnd then t else refuseAccess s) := by
  rw [← apply_ite Host.Outcome.next]
  simp only [targetOk_iff]

theorem exec_jp (s : State) (nnn : Addr) :
    exec (.jp nnn) s = .next (if nnn.toNat ≤ userEnd then writePC s (addrWord nnn) else refuseAccess s) :=
  ite_targetOk _ _ _

theorem exec_jpV0 (s : State) (nnn : Addr) :
    exec (.jpV0 nnn) s = .next (if indexedTarget s nnn ≤ userEnd then
      writePC s (BitVec.ofNat 16 (indexedTarget s nnn)) else refuseAccess s) :=
  ite_targetOk _ _ _

theorem exec_ldINnn (s : State) (nnn : Addr) :
    exec (.ldINnn nnn) s = .next (if nnn.toNat ≤ userEnd then writeI s (addrWord nnn) else refuseAccess s) :=
  ite_targetOk _ _ _

/-! The key skips (R201, R202). -/

theorem exec_skp_key {s : State} {x k : Nibble} (h : keyIndex (readV s x) = some k) :
    exec (.skp x) s = .next (if keyPressed s k then skipNext s else s) := by
  simp only [exec, execSkp, h]

theorem exec_sknp_key {s : State} {x k : Nibble} (h : keyIndex (readV s x) = some k) :
    exec (.sknp x) s = .next (if keyPressed s k then s else skipNext s) := by
  simp only [exec, execSknp, h]

theorem exec_skp_noKey {s : State} {x : Nibble} (h : keyIndex (readV s x) = none) :
    exec (.skp x) s = .next (refuseKey s) := by
  simp only [exec, execSkp, h]

theorem exec_sknp_noKey {s : State} {x : Nibble} (h : keyIndex (readV s x) = none) :
    exec (.sknp x) s = .next (refuseKey s) := by
  simp only [exec, execSknp, h]

/-! The step (R225; log 4). -/

theorem step_of_no_pending {s : State} (h : s.pending = []) : step s = tick s := by simp only [step, h]

theorem step_of_pending {s : State} {op : HostOp} {rest : List HostOp} (h : s.pending = op :: rest) :
    step s = performHostOp op { s with pending := rest } := by simp only [step, h]

end Sys2Proof.Machine
end

section
/-! PROOFS. Every step keeps the invariant, and none stops the machine (10_state.md, 20_memory.md section 2). -/

namespace Sys2Proof.Machine

/-! The stack. -/

/-- Where the stack is not empty, `SP - 2` is the boundary of a used slot. -/
theorem State.Inv.top_slot {s : State} (h : s.Inv) (hempty : s.sp.toNat ≠ stackBase) :
    ∃ k, k < s.config.stackSlots ∧ s.sp.toNat = stackBase + 2 * k + 2 ∧ (s.sp - 2).toNat = stackBase + 2 * k := by
  obtain ⟨k, hk, hsp⟩ := h.stack
  have hslots := h.stackSlots_le
  simp only [stackBase] at *
  exact ⟨k - 1, by omega, by omega, by bv_omega⟩

/-- A push of a word a `PC` can hold after a fetch keeps the invariant. -/
theorem State.Inv.pushed {s : State} (h : s.Inv) (hfull : s.sp.toNat ≠ s.config.stackLimit) {w : Word}
    (hw : w.toNat ≤ 0x1000) : (pushed s w).Inv := by
  obtain ⟨hlo, hhi⟩ := h.stack.slot_left hfull
  have hlim := stackLimit_le h.config
  have hm : s.sp.toNat + 1 < memSize := by simp only [memSize]; omega
  have hsp : (Machine.pushed s w).sp.toNat = s.sp.toNat + 2 := by rw [pushed_sp]; bv_omega
  refine ⟨h.config, pushed_wf h.memory w hm, h.index, ?stack, h.latch, h.ghost, h.pcBound, ?returns, ?high, ?system⟩
  case stack =>
    obtain ⟨k, hk, hk'⟩ := h.stack
    have hlt : k + 1 ≤ s.config.stackSlots := by simp only [Config.stackLimit] at hfull; omega
    exact ⟨k + 1, hlt, by omega⟩
  case returns =>
    intro k hk
    rw [hsp] at hk
    by_cases hnew : stackBase + 2 * k = s.sp.toNat
    · rw [hnew, byteAt_pushed_high h.memory, byteAt_pushed_low h.memory w hm, wordOfBytes_high_low]
      exact hw
    · obtain ⟨j, -, hj⟩ := h.stack
      rw [memSameOutside_pushed s w _ (by omega), memSameOutside_pushed s w _ (by omega)]
      exact h.returns k (by omega)
  case high =>
    intro a ha
    have ha : s.config.stackLimit ≤ a := ha
    rw [memSameOutside_pushed s w _ (by omega)]
    exact h.highZero a ha
  case system =>
    intro hp a ha
    simp only [userBase, stackBase] at ha hlo
    rw [memSameOutside_pushed s w _ (by omega)]
    exact h.systemKept hp a ha

/-- A pop from a stack that is not empty keeps the invariant: what it loads into `PC` was pushed. -/
theorem State.Inv.popped {s : State} (h : s.Inv) (hempty : s.sp.toNat ≠ stackBase) : (popped s).Inv := by
  obtain ⟨k, hk, hsp, hsp'⟩ := h.top_slot hempty
  have hret : (Machine.popped s).pc.toNat ≤ 0x1000 := by
    rw [popped_pc, hsp']
    exact h.returns k (by omega)
  refine ⟨h.config, h.memory, h.index, ⟨k, Nat.le_of_lt hk, hsp'⟩, h.latch, h.ghost, by omega, ?_, h.highZero,
    h.systemKept⟩
  intro j hj
  rw [popped_sp, hsp'] at hj
  exact h.returns j (by omega)

/-! The instructions. -/

theorem State.Inv.ite {c : Prop} [Decidable c] {s t : State} (hs : s.Inv) (ht : t.Inv) : (if c then s else t).Inv := by
  split <;> assumption

/-- A skip of a `PC` that a fetch has moved (R110). -/
theorem State.Inv.skipNext {s : State} (h : s.Inv) (hpc : s.pc.toNat ≤ 0x1000) : (skipNext s).Inv :=
  h.writePC (by bv_omega)

theorem State.Inv.refuseKey {s : State} (h : s.Inv) : (refuseKey s).Inv := h.raise _ _ _ (by decide) (by decide)

theorem State.Inv.takeRandom {s : State} (h : s.Inv) : (takeRandom s).Inv := by
  unfold Machine.takeRandom
  split <;> exact h.of_frame rfl rfl rfl h.index h.pcBound h.latch h.ghost

/-- After a fetch every instruction has a next state, and keeps the invariant. -/
theorem State.Inv.exec {s : State} (h : s.Inv) (hpc : s.pc.toNat ≤ 0x1000) (i : Instr) :
    ∃ t, exec i s = .next t ∧ t.Inv := by
  have key : ∀ {x : Nibble} {f : Nibble → State} {i : Instr},
      (keyIndex (readV s x) = none → Machine.exec i s = .next (Machine.refuseKey s)) →
      (∀ k, keyIndex (readV s x) = some k → Machine.exec i s = .next (f k) ∧ (f k).Inv) →
      ∃ t, Machine.exec i s = .next t ∧ t.Inv := by
    intro x f i hnone hsome
    cases hk : keyIndex (readV s x) with
    | none => exact ⟨_, hnone hk, h.refuseKey⟩
    | some k => exact ⟨_, hsome k hk⟩
  cases i with
  | ret =>
    by_cases hempty : s.sp.toNat = stackBase
    · exact ⟨_, exec_ret_empty hempty, h.raise _ _ _ (by decide) (by decide)⟩
    · obtain ⟨k, hk, -, hsp⟩ := h.top_slot hempty
      have := h.stackSlots_le
      exact ⟨_, exec_ret_pop hempty (by simp only [hsp, stackBase, memSize]; omega), h.popped hempty⟩
  | call nnn =>
    by_cases hfull : s.sp.toNat = s.config.stackLimit
    · exact ⟨_, exec_call_full nnn hfull, h.raise _ _ _ (by decide) (by decide)⟩
    by_cases ht : nnn.toNat ≤ userEnd
    · have hslot := h.stack.slot_left hfull
      have hlim := stackLimit_le h.config
      refine ⟨_, exec_call_push hfull ht (by simp only [memSize]; omega), (h.pushed hfull hpc).writePC ?_⟩
      rw [addrWord_toNat]; omega
    · exact ⟨_, exec_call_refused hfull (Nat.lt_of_not_le ht), h.refuseAccess⟩
  | jp nnn =>
    exact ⟨_, exec_jp s nnn, .ite (h.writePC (by rw [addrWord_toNat]; omega)) h.refuseAccess⟩
  | jpV0 nnn =>
    refine ⟨_, exec_jpV0 s nnn, ?_⟩
    split
    · next ht =>
      simp only [userEnd] at ht
      exact h.writePC (by rw [BitVec.toNat_ofNat]; omega)
    · exact h.refuseAccess
  | ldINnn nnn => exact ⟨_, exec_ldINnn s nnn, .ite (h.writeI _) h.refuseAccess⟩
  | seVxNn | sneVxNn | seVxVy | sneVxVy => exact ⟨_, rfl, .ite (h.skipNext hpc) h⟩
  | skp x => exact key exec_skp_noKey fun k hk => ⟨exec_skp_key hk, .ite (h.skipNext hpc) h⟩
  | sknp x => exact key exec_sknp_noKey fun k hk => ⟨exec_sknp_key hk, .ite h (h.skipNext hpc)⟩
  | ldVxNn | addVxNn | ldVxVy | or | and | xor | ldVxDt => exact ⟨_, rfl, h.writeV _ _⟩
  | addVxVy | sub | shr | subn | shl => exact ⟨_, rfl, (h.writeV _ _).writeV _ _⟩
  | rnd => exact ⟨_, rfl, h.takeRandom.writeV _ _⟩
  | addIVx | ldFVx => exact ⟨_, rfl, h.writeI _⟩
  | drw => exact ⟨_, rfl, (h.writeV _ _).drawRows _ _ _ _⟩
  | ldBVx | ldMemVx => exact ⟨_, rfl, h.storeBytes _ _⟩
  | ldVxMem => exact ⟨_, rfl, h.loadRegs _ _⟩
  | cls | ldVxK | ldDtVx | ldStVx => exact ⟨_, rfl, h.of_frame rfl rfl rfl h.index h.pcBound h.latch h.ghost⟩

/-! The tick. -/

/-- A fetched word moves `PC` to `0x1000` at most (R81, R82). -/
theorem afterFetch_pc_le {s : State} {w : Word} (hw : fetchedWord s = some w) : (afterFetch s w).pc.toNat ≤ 0x1000 := by
  have hlt : s.pc.toNat + 1 < 4096 := (fetchedWord_cases hw).1
  rw [afterFetch_pc]
  bv_omega

theorem State.Inv.tick {s : State} (h : s.Inv) : ∃ t, tick s = .next t ∧ t.Inv := by
  unfold Machine.tick
  split
  · exact ⟨s, rfl, h⟩
  · split
    · exact ⟨_, rfl, h.raise _ _ _ (by decide) (by decide)⟩
    · next w hw =>
      have hpc := afterFetch_pc_le hw
      have h' : (afterFetch s w).Inv := h.of_frame rfl rfl rfl h.index (by omega) h.latch h.ghost
      unfold runWord
      split
      · exact h'.exec hpc _
      · exact ⟨_, rfl, h'.raise _ _ _ (by decide) (by decide)⟩

/-! The host's operations. -/

/-- Bytes copied into the user region keep the invariant (R56, R262). -/
theorem State.Inv.rawWriteBytes (bs : List Byte) {s : State} (h : s.Inv) {a : Nat} (hlo : userBase ≤ a)
    (hhi : a + bs.length ≤ userEnd + 1) : ∃ t, rawWriteBytes s a bs = some t ∧ t.Inv := by
  induction bs generalizing s a with
  | nil => exact ⟨s, rfl, h⟩
  | cons b bs ih =>
    simp only [List.length_cons] at hhi
    have hw : Writable s a := ⟨by omega, fun _ => hlo⟩
    have hlt : a < memSize := by simp only [userEnd, memSize] at *; omega
    simp only [Machine.rawWriteBytes, rawWrite_eq b hlt]
    exact ih (h.setByte b hw) (by omega) (by omega)

theorem State.Inv.loadProgram {s : State} (h : s.Inv) (buf : List Byte) : ∃ t, loadProgram s buf = .next t ∧ t.Inv := by
  unfold Machine.loadProgram
  split
  · exact ⟨_, rfl, h.raise _ _ _ (by decide) (by decide)⟩
  · next hlen =>
    have hmax := h.config
    simp only [Config.wellFormed, Config.maxProgramSizeLegal, Bool.and_eq_true, decide_eq_true_eq] at hmax
    obtain ⟨t, ht, hinv⟩ := h.rawWriteBytes buf (a := userBase) (Nat.le_refl _) (by omega)
    exact ⟨t, by rw [ht], hinv⟩

/-- Power-on with legal parameters meets the invariant (R38). -/
theorem inv_resetWith {c : Config} (hc : c.wellFormed = true) : (State.resetWith c).Inv where
  config := hc
  memory := Memory.nil_wf c
  index := show (0x200 : Word).toNat ≤ 0xFFF by decide
  stack := ⟨0, Nat.zero_le _, rfl⟩
  latch := .inl rfl
  ghost := nofun
  pcBound := show (0x200 : Word).toNat ≤ 0x1002 by decide
  returns k hk := absurd (show stackBase + 2 * k < stackBase from hk) (by omega)
  highZero a ha := by
    have ha : 0xEA0 + 2 * c.stackSlots ≤ a := ha
    exact dif_neg (by omega)
  systemKept _ _ _ := rfl

theorem State.Inv.keyDown {s : State} (h : s.Inv) (k : Nibble) : (keyDown s k).Inv := by
  have hkey : (Machine.setKey s k true).Inv := h.of_frame rfl rfl rfl h.index h.pcBound h.latch h.ghost
  cases hr : s.run with
  | running => rw [keyDown_running k hr]; exact hkey
  | awaitingKey x =>
    rw [keyDown_waiting k hr]
    exact (hkey.writeV x (k.setWidth 8)).of_frame rfl rfl rfl h.index h.pcBound h.latch h.ghost

theorem State.Inv.performHostOp {s : State} (h : s.Inv) (op : HostOp) : ∃ t, performHostOp op s = .next t ∧ t.Inv := by
  cases op with
  | reset =>
    have h0 := inv_resetWith h.config
    exact ⟨_, rfl, h0.of_frame rfl rfl rfl h0.index h0.pcBound h0.latch nofun⟩
  | loadProgram buf => exact h.loadProgram buf
  | tick => exact h.tick
  | keyDown k => exact ⟨_, rfl, h.keyDown k⟩
  | clearError => exact ⟨_, rfl, h.of_frame rfl rfl rfl h.index h.pcBound (.inl rfl) nofun⟩
  | decrementTimers | keyUp => exact ⟨_, rfl, h.of_frame rfl rfl rfl h.index h.pcBound h.latch h.ghost⟩
  | readPixels | readSound | readError => exact ⟨s, rfl, h⟩

/-- Settles O3: `State.Inv` is kept by the tick and by each operation of the host, and neither stops from it. -/
theorem everyStepKeepsTheInvariant : Obligations.EveryStepKeepsTheInvariant := by
  intro s h
  cases hp : s.pending with
  | nil => rw [step_of_no_pending hp]; exact h.tick
  | cons op rest =>
    have h' : ({ s with pending := rest } : State).Inv := h.of_frame rfl rfl rfl h.index h.pcBound h.latch h.ghost
    rw [step_of_pending hp]
    exact h'.performHostOp op

/-- Settles O2: the default parameters are legal (`STACK_SLOTS` 12, `MAX_PROGRAM_SIZE` 3231). -/
theorem resetMeetsTheInvariant : Obligations.ResetMeetsTheInvariant := inv_resetWith (by decide)

end Sys2Proof.Machine
end

section
/-! PROOFS. The encoding (30_encoding.md sections 1, 3 and 5). -/

namespace Sys2Proof

/-- Settles O12: `decode_encode`, every instruction being well-formed (log 27). -/
theorem decodeOfEncodeIsTheInstruction : Obligations.DecodeOfEncodeIsTheInstruction := fun i _ => decode_encode i

/-- Settles O13: `encode_of_decode`. -/
theorem encodeOfDecodeIsTheWord : Obligations.EncodeOfDecodeIsTheWord := fun _ _ => encode_of_decode

end Sys2Proof
end

section
/-! SUPPORT. What a tick answers, branch by branch; what the updates leave unchanged; and that no tick looks at the
latch (30_encoding.md section 4, 60_exceptions.md section 1). -/

namespace Sys2Proof.Machine

/-! The tick (R83). -/

theorem tick_waiting {s : State} {x : Nibble} (h : s.run = .awaitingKey x) : tick s = .next s := by
  simp only [tick, h]

theorem tick_fetch_fault {s : State} (hr : s.run = .running) (hf : fetchedWord s = none) :
    tick s = .next (raise s .undefinedOperation reasonFetchOutOfRange s.pc) := by
  simp only [tick, hr, hf]

theorem tick_invalid {s : State} {w : Word} {e : DecodeReject} (hr : s.run = .running) (hf : fetchedWord s = some w)
    (hd : decode w = .error e) : tick s = .next (raise (afterFetch s w) .invalidOpcode 0 w) := by
  simp only [tick, hr, hf, runWord, hd]

theorem tick_exec {s : State} {w : Word} {i : Instr} (hr : s.run = .running) (hf : fetchedWord s = some w)
    (hd : decode w = .ok i) : tick s = exec i (afterFetch s w) := by
  simp only [tick, hr, hf, runWord, hd]

/-! The frames of the updates and of the block operations. -/

theorem SameBut.ite {c : Prop} [Decidable c] {cs : List Component} {s t u : State} (ht : SameBut cs s t)
    (hu : SameBut cs s u) : SameBut cs s (if c then t else u) := by
  split <;> assumption

theorem sameBut_writePC (s : State) (w : Word) : SameBut [.pc] s (writePC s w) := sameBut_pc s w

theorem sameBut_writeI (s : State) (w : Word) : SameBut [.i] s (writeI s w) := sameBut_i s _

theorem sameBut_skipNext (s : State) : SameBut [.pc] s (skipNext s) := sameBut_pc s _

theorem sameBut_afterFetch (s : State) (w : Word) : SameBut [.pc, .lastOpcode] s (afterFetch s w) :=
  have hpc : SameBut [.pc, .lastOpcode] s { s with pc := s.pc + 2 } := (sameBut_pc s _).mono (by simp)
  hpc.trans ((sameBut_lastOpcode _ w).mono (by simp))

theorem sameBut_refuseAccess (s : State) : SameBut [.err, .faulted] s (refuseAccess s) := sameBut_raise s _ _ _

theorem sameBut_refuseKey (s : State) : SameBut [.err, .faulted] s (refuseKey s) := sameBut_raise s _ _ _

theorem sameBut_storeBytes (s : State) (off : Nat) (bs : List Byte) :
    SameBut [.mem, .err, .faulted] s (storeBytes s off bs) := by
  obtain ⟨m, e, f, h⟩ := storeBytes_shape bs s off
  have hm : SameBut [.mem, .err, .faulted] s { s with mem := m } := (sameBut_mem s m).mono (by simp)
  rw [h]
  exact hm.trans ((sameBut_err_faulted _ e f).mono (by simp))

theorem sameBut_loadRegs (s : State) (off n : Nat) : SameBut [.v, .err, .faulted] s (loadRegs s off n) := by
  obtain ⟨v, e, f, h⟩ := loadRegs_shape n s off
  have hv : SameBut [.v, .err, .faulted] s { s with v := v } := (sameBut_v s v).mono (by simp)
  rw [h]
  exact hv.trans ((sameBut_err_faulted _ e f).mono (by simp))

theorem sameBut_v_fb (s : State) (v : Vector Byte 16) (fb : Vector (Vector Bool 64) 32) :
    SameBut [.v, .fb] s { s with v := v, fb := fb } :=
  have hv : SameBut [.v, .fb] s { s with v := v } := (sameBut_v s v).mono (by simp)
  hv.trans ((sameBut_fb _ fb).mono (by simp))

theorem sameBut_drawRows (s : State) (vx vy r n : Nat) :
    SameBut [.v, .fb, .err, .faulted] s (drawRows s vx vy r n) := by
  obtain ⟨v, fb, e, f, h⟩ := drawRows_shape n s vx vy r
  have hv : SameBut [.v, .fb, .err, .faulted] s { s with v := v, fb := fb } := (sameBut_v_fb s v fb).mono (by simp)
  rw [h]
  exact hv.trans ((sameBut_err_faulted _ e f).mono (by simp))

/-! The key skips leave one of three states. -/

theorem keySkip_cases {r : Result} {s t : State} {x : Nibble}
    (hnone : keyIndex (readV s x) = none → r = .next (refuseKey s))
    (hsome : ∀ k, keyIndex (readV s x) = some k → r = .next (skipNext s) ∨ r = .next s) (h : r = .next t) :
    t = refuseKey s ∨ t = skipNext s ∨ t = s := by
  cases hk : keyIndex (readV s x) with
  | none => cases (hnone hk).symm.trans h; exact .inl rfl
  | some k =>
    rcases hsome k hk with hskip | hstay
    · cases hskip.symm.trans h; exact .inr (.inl rfl)
    · cases hstay.symm.trans h; exact .inr (.inr rfl)

theorem exec_skp_cases {s t : State} {x : Nibble} (h : exec (.skp x) s = .next t) :
    t = refuseKey s ∨ t = skipNext s ∨ t = s :=
  keySkip_cases exec_skp_noKey (fun k hk => by rw [exec_skp_key hk]; cases keyPressed s k <;> simp) h

theorem exec_sknp_cases {s t : State} {x : Nibble} (h : exec (.sknp x) s = .next t) :
    t = refuseKey s ∨ t = skipNext s ∨ t = s :=
  keySkip_cases exec_sknp_noKey (fun k hk => by rw [exec_sknp_key hk]; cases keyPressed s k <;> simp) h

/-! The latch. -/

/-- `op` takes `s` to `t` whatever the latch of `s` holds: it leaves latch and ghost bit alone, or it raises a fault the
core raises. -/
inductive LatchBlind (op : State → Result) (s t : State) : Prop
  | kept (herr : t.err = s.err) (hghost : t.faulted = s.faulted)
      (hop : ∀ e, op { s with err := e } = .next { t with err := e })
  | raised (f : FaultCode) (r : Byte) (w : Word) (hf : f ≠ .clearScreenFailure)
      (herr : t.err = ⟨true, faultNumber f, w, r⟩) (hghost : t.faulted = true)
      (hop : ∀ e, op { s with err := e } = .next t)

/-- A first move that leaves latch and ghost bit alone. -/
theorem LatchBlind.after {op op' : State → Result} {s s' t : State} (h : LatchBlind op' s' t) (herr : s'.err = s.err)
    (hghost : s'.faulted = s.faulted) (hop : ∀ e, op { s with err := e } = op' { s' with err := e }) :
    LatchBlind op s t := by
  cases h with
  | kept he hg h => exact .kept (he.trans herr) (hg.trans hghost) fun e => (hop e).trans (h e)
  | raised f r w hf he hg h => exact .raised f r w hf he hg fun e => (hop e).trans (h e)

theorem latchBlind_raise {op : State → Result} {s u : State} {f : FaultCode} {r : Byte} {w : Word}
    (hf : f ≠ .clearScreenFailure) (hop : ∀ e, op { s with err := e } = .next (raise u f r w)) :
    LatchBlind op s (raise u f r w) := .raised f r w hf rfl rfl hop

theorem latchBlind_refuseAccess {op : State → Result} {s u : State}
    (hop : ∀ e, op { s with err := e } = .next (refuseAccess u)) : LatchBlind op s (refuseAccess u) :=
  latchBlind_raise (by decide) hop

/-- A choice whose condition does not look at the latch. -/
theorem latchBlind_ite {c : Prop} [Decidable c] {f g : State → State} {s : State}
    (hf : LatchBlind (fun u => .next (f u)) s (f s)) (hg : LatchBlind (fun u => .next (g u)) s (g s)) :
    LatchBlind (fun u => .next (if c then f u else g u)) s (if c then f s else g s) := by
  by_cases h : c
  · simpa only [if_pos h] using hf
  · simpa only [if_neg h] using hg

theorem latchBlind_storeBytes (bs : List Byte) (s : State) (off : Nat) :
    LatchBlind (fun u => .next (storeBytes u off bs)) s (storeBytes s off bs) := by
  induction bs generalizing s off with
  | nil => exact .kept rfl rfl fun _ => rfl
  | cons b bs ih =>
    by_cases hw : Writable s (effAddr s off)
    · simp only [storeBytes, memWrite_eq b hw]
      refine (ih _ _).after rfl rfl fun e => ?_
      have hw' : Writable { s with err := e } (effAddr { s with err := e } off) := hw
      simp only [memWrite_eq b hw']
      rfl
    · simp only [storeBytes, memWrite_none b hw]
      refine latchBlind_refuseAccess fun e => ?_
      have hw' : ¬ Writable { s with err := e } (effAddr { s with err := e } off) := hw
      simp only [memWrite_none b hw']
      rfl

theorem latchBlind_loadRegs (n : Nat) (s : State) (off : Nat) :
    LatchBlind (fun u => .next (loadRegs u off n)) s (loadRegs s off n) := by
  induction n generalizing s off with
  | zero => exact .kept rfl rfl fun _ => rfl
  | succ n ih =>
    have hread : ∀ e, memRead { s with err := e } (effAddr { s with err := e } off) = memRead s (effAddr s off) :=
      fun _ => rfl
    simp only [loadRegs]
    cases hm : memRead s (effAddr s off) with
    | some b => exact (ih _ _).after rfl rfl fun e => by simp only [hread e, hm]; rfl
    | none => exact latchBlind_refuseAccess fun e => by simp only [hread e, hm]; rfl

theorem drawBit_setErr (b : Byte) (vx : Nat) (y : Fin 32) (s : State) (c : Nat) (e : ErrLatch) :
    drawBit b vx y { s with err := e } c = { drawBit b vx y s c with err := e } := by
  have hpix : ∀ x, pixel { s with err := e } x y = pixel s x y := fun _ => rfl
  unfold drawBit plot
  split
  · simp only [hpix]
    split <;> rfl
  · rfl

theorem drawRow_setErr (s : State) (b : Byte) (vx : Nat) (y : Fin 32) (e : ErrLatch) :
    drawRow { s with err := e } b vx y = { drawRow s b vx y with err := e } := by
  unfold drawRow
  induction List.range 8 generalizing s with
  | nil => rfl
  | cons c cs ih => rw [List.foldl_cons, List.foldl_cons, drawBit_setErr, ih]

theorem takeRandom_setErr (s : State) (e : ErrLatch) :
    takeRandom { s with err := e } = { takeRandom s with err := e } := by
  unfold takeRandom
  cases s.randoms <;> rfl

theorem latchBlind_drawRows (n : Nat) (s : State) (vx vy r : Nat) :
    LatchBlind (fun u => .next (drawRows u vx vy r n)) s (drawRows s vx vy r n) := by
  induction n generalizing s r with
  | zero => exact .kept rfl rfl fun _ => rfl
  | succ n ih =>
    have hread : ∀ e, memRead { s with err := e } (effAddr { s with err := e } r) = memRead s (effAddr s r) :=
      fun _ => rfl
    simp only [drawRows]
    cases hm : memRead s (effAddr s r) with
    | none => exact latchBlind_refuseAccess fun e => by simp only [hread e, hm]; rfl
    | some b =>
      -- a drawn row, then the rest
      have row : ∀ y, LatchBlind (fun u => .next (drawRows (drawRow u b vx y) vx vy (r + 1) n)) s
          (drawRows (drawRow s b vx y) vx vy (r + 1) n) := fun y => by
        obtain ⟨v, fb, hrow⟩ := (drawRow_drawn s b vx y).shape
        exact (ih (drawRow s b vx y) (r + 1)).after (by rw [hrow]) (by rw [hrow])
          fun e => by simp only [drawRow_setErr]
      have drawn := latchBlind_ite (c := s.config.wrapY = true) (row (Fin.ofNat 32 (vy + r)))
        (latchBlind_ite (c := 32 ≤ vy + r) (.kept (op := fun u => .next u) rfl rfl fun _ => rfl)
          (row (Fin.ofNat 32 (vy + r))))
      exact drawn.after rfl rfl fun e => by simp only [hread e, hm]

/-- An instruction that loads a checked target, where neither target nor load looks at the latch (R111). -/
theorem latchBlind_checked {i : Instr} {s t : State} {n : State → Nat} (f : State → State)
    (hi : ∀ u, exec i u = .next (if n u ≤ userEnd then f u else refuseAccess u)) (hn : ∀ e, n { s with err := e } = n s)
    (hf : LatchBlind (fun u => .next (f u)) s (f s)) (h : exec i s = .next t) : LatchBlind (exec i) s t := by
  rw [hi] at h
  cases h
  have hrefuse : LatchBlind (fun u => .next (refuseAccess u)) s (refuseAccess s) := latchBlind_refuseAccess fun _ => rfl
  exact (latchBlind_ite hf hrefuse).after rfl rfl fun e => by rw [hi, hn]

/-- A skip by a key, which raises where the register names none (R200). -/
theorem latchBlind_keySkip {i : Instr} {s t : State} {x : Nibble} {f : State → Nibble → State}
    (hnone : ∀ u, keyIndex (readV u x) = none → exec i u = .next (refuseKey u))
    (hsome : ∀ u k, keyIndex (readV u x) = some k → exec i u = .next (f u k))
    (hf : ∀ k, LatchBlind (fun u => .next (f u k)) s (f s k)) (h : exec i s = .next t) : LatchBlind (exec i) s t := by
  cases hk : keyIndex (readV s x) with
  | none =>
    rw [hnone s hk] at h
    cases h
    exact latchBlind_raise (by decide) fun e => hnone { s with err := e } hk
  | some k =>
    rw [hsome s k hk] at h
    cases h
    exact (hf k).after rfl rfl fun e => hsome { s with err := e } k hk

/-- No instruction looks at the latch (R230). -/
theorem exec_latchBlind {i : Instr} {s t : State} (h : exec i s = .next t) : LatchBlind (exec i) s t := by
  have stay : LatchBlind .next s s := .kept rfl rfl fun _ => rfl
  have skip : LatchBlind (fun u => .next (skipNext u)) s (skipNext s) := .kept rfl rfl fun _ => rfl
  cases i with
  | ret =>
    rcases exec_ret_cases h with ⟨hb, rfl⟩ | ⟨hb, hm, rfl⟩
    · exact latchBlind_raise (by decide) fun e => exec_ret_empty (s := { s with err := e }) hb
    · exact .kept rfl rfl fun e => exec_ret_pop (s := { s with err := e }) hb hm
  | call nnn =>
    rcases exec_call_cases h with ⟨hf, rfl⟩ | ⟨hf, ht, rfl⟩ | ⟨hf, ht, hm, rfl⟩
    · exact latchBlind_raise (by decide) fun e => exec_call_full (s := { s with err := e }) nnn hf
    · exact latchBlind_refuseAccess fun e => exec_call_refused (s := { s with err := e }) hf ht
    · exact .kept rfl rfl fun e => exec_call_push (s := { s with err := e }) hf ht hm
  | jp nnn =>
    exact latchBlind_checked (writePC · (addrWord nnn)) (fun u => exec_jp u nnn) (fun _ => rfl)
      (.kept rfl rfl fun _ => rfl) h
  | jpV0 nnn =>
    exact latchBlind_checked (fun u => writePC u (BitVec.ofNat 16 (indexedTarget u nnn))) (fun u => exec_jpV0 u nnn)
      (fun _ => rfl) (.kept rfl rfl fun _ => rfl) h
  | ldINnn nnn =>
    exact latchBlind_checked (writeI · (addrWord nnn)) (fun u => exec_ldINnn u nnn) (fun _ => rfl)
      (.kept rfl rfl fun _ => rfl) h
  | seVxNn | sneVxNn | seVxVy | sneVxVy =>
    cases h
    exact (latchBlind_ite skip stay).after rfl rfl fun _ => rfl
  | skp x =>
    exact latchBlind_keySkip (f := fun u k => if keyPressed u k then skipNext u else u) (fun _ => exec_skp_noKey)
      (fun _ _ => exec_skp_key) (fun k => (latchBlind_ite skip stay).after rfl rfl fun _ => rfl) h
  | sknp x =>
    exact latchBlind_keySkip (f := fun u k => if keyPressed u k then u else skipNext u) (fun _ => exec_sknp_noKey)
      (fun _ _ => exec_sknp_key) (fun k => (latchBlind_ite stay skip).after rfl rfl fun _ => rfl) h
  | rnd x nn =>
    cases h
    refine .kept (sameBut_takeRandom s .err (by decide)) (sameBut_takeRandom s .faulted (by decide)) fun e => ?_
    simp only [exec, execRnd, takeRandom_setErr]
    rfl
  | drw x y n =>
    cases h
    exact (latchBlind_drawRows _ (writeV s flagReg 0) _ _ _).after rfl rfl fun _ => rfl
  | ldBVx | ldMemVx =>
    cases h
    exact (latchBlind_storeBytes _ s 0).after rfl rfl fun _ => rfl
  | ldVxMem x =>
    cases h
    exact (latchBlind_loadRegs _ s 0).after rfl rfl fun _ => rfl
  | _ =>
    cases h
    exact .kept rfl rfl fun _ => rfl

/-- No tick looks at the latch (R230). -/
theorem tick_latchBlind {s t : State} (h : tick s = .next t) : LatchBlind tick s t := by
  rcases tick_cases h with ⟨x, hr, rfl⟩ | ⟨hr, hf, rfl⟩ | ⟨hr, w, hf, ⟨d, hd, rfl⟩ | ⟨i, hd, hi⟩⟩
  · exact .kept rfl rfl fun e => tick_waiting (s := { t with err := e }) hr
  · exact latchBlind_raise (by decide) fun e => tick_fetch_fault (s := { s with err := e }) hr hf
  · exact latchBlind_raise (by decide) fun e => tick_invalid (s := { s with err := e }) hr hf hd
  · exact (exec_latchBlind hi).after rfl rfl fun e => tick_exec (s := { s with err := e }) hr hf hd

end Sys2Proof.Machine
end

section
/-! PROOFS. What every instruction and every step leaves unchanged (10_state.md, 20_memory.md sections 1 and 2,
60_exceptions.md section 1). -/

namespace Sys2Proof.Machine

/-! The instructions. -/

/-- Settles O53: the frame of each update a handler makes is within the footprint. -/
theorem instructionsKeepToTheirFootprint : Obligations.InstructionsKeepToTheirFootprint := by
  intro i s t h
  -- the frames of the three things a key skip or a checked load can leave, as wide as the footprint
  have pc : ∀ w, SameBut [.pc, .err, .faulted] s (writePC s w) := fun w => (sameBut_writePC s w).mono (by simp)
  have index : ∀ w, SameBut [.i, .err, .faulted] s (writeI s w) := fun w => (sameBut_writeI s w).mono (by simp)
  have refuse : ∀ c, SameBut [c, .err, .faulted] s (refuseAccess s) := fun c => (sameBut_refuseAccess s).mono (by simp)
  have keySkip : t = refuseKey s ∨ t = skipNext s ∨ t = s → SameBut [.pc, .err, .faulted] s t := by
    rintro (rfl | rfl | rfl)
    · exact (sameBut_refuseKey s).mono (by simp)
    · exact (sameBut_skipNext s).mono (by simp)
    · exact .refl _ _
  cases i with
  | cls => cases h; exact sameBut_fb s _
  | ret =>
    rcases exec_ret_cases h with ⟨-, rfl⟩ | ⟨-, -, rfl⟩
    · exact (sameBut_raise s _ _ _).mono (by simp [footprint])
    · exact (sameBut_popped s).mono (by simp [footprint])
  | call nnn =>
    rcases exec_call_cases h with ⟨-, rfl⟩ | ⟨-, -, rfl⟩ | ⟨-, -, -, rfl⟩
    · exact (sameBut_raise s _ _ _).mono (by simp [footprint])
    · exact (sameBut_refuseAccess s).mono (by simp [footprint])
    · exact ((sameBut_pushed s _).mono (by simp [footprint])).trans ((sameBut_writePC _ _).mono (by simp [footprint]))
  | jp nnn => rw [exec_jp] at h; cases h; exact .ite (pc _) (refuse .pc)
  | jpV0 nnn => rw [exec_jpV0] at h; cases h; exact .ite (pc _) (refuse .pc)
  | ldINnn nnn => rw [exec_ldINnn] at h; cases h; exact .ite (index _) (refuse .i)
  | skp x => exact keySkip (exec_skp_cases h)
  | sknp x => exact keySkip (exec_sknp_cases h)
  | seVxNn | sneVxNn | seVxVy | sneVxVy =>
    cases h; exact .ite (sameBut_skipNext s) (.refl _ _)
  | ldVxNn | addVxNn | ldVxVy | or | and | xor | ldVxDt => cases h; exact sameBut_writeV s _ _
  | addVxVy | sub | shr | subn | shl => cases h; exact sameBut_writeResultThenFlag s _ _ _
  | rnd x nn =>
    cases h
    exact ((sameBut_takeRandom s).mono (by simp [footprint])).trans ((sameBut_writeV _ _ _).mono (by simp [footprint]))
  | drw x y n =>
    cases h
    exact ((sameBut_writeV s _ _).mono (by simp [footprint])).trans (sameBut_drawRows _ _ _ _ _)
  | ldVxK => cases h; exact sameBut_run s _
  | ldDtVx => cases h; exact sameBut_dt s _
  | ldStVx => cases h; exact sameBut_st s _
  | addIVx | ldFVx => cases h; exact sameBut_writeI s _
  | ldBVx | ldMemVx => cases h; exact sameBut_storeBytes s _ _
  | ldVxMem => cases h; exact sameBut_loadRegs s _ _

/-- A component outside an instruction's footprint is kept. -/
theorem exec_keeps {i : Instr} {s t : State} (h : exec i s = .next t) {c : Component} (hc : c ∉ footprint i) :
    SameIn s t c := instructionsKeepToTheirFootprint i s t h c hc

/-- Settles O54: outside `footprint` by O53; the others write `VX`, `VF` or a block of registers by number. -/
theorem registersAreWrittenByTheTable : Obligations.RegistersAreWrittenByTheTable := by
  intro i s t h r hr
  cases i with
  | ldVxNn x | addVxNn x | ldVxVy x | or x | and x | xor x | ldVxDt x =>
    cases h
    exact readV_writeV_other s _ (by simpa [mayWriteReg] using hr)
  | rnd x nn =>
    cases h
    have hsame : readV (takeRandom s) r = readV s r := sameBut_takeRandom s .v (by decide) r
    rw [← hsame]
    exact readV_writeV_other _ _ (by simpa [mayWriteReg] using hr)
  | addVxVy x | sub x | shr x | subn x | shl x =>
    cases h
    exact regsSameBut_writeResultThenFlag s x _ _ r (by simpa [mayWriteReg] using hr)
  | drw x y n =>
    cases h
    have hflag : r ≠ flagReg := by simpa [mayWriteReg, flagReg] using hr
    rw [readV_drawRows_other _ _ _ _ _ hflag, readV_writeV_other _ _ hflag]
  | ldVxMem x =>
    cases h
    have hx := x.isLt
    have hr : x.toNat < r.toNat := by simpa [mayWriteReg] using hr
    exact readV_loadRegs_other _ s 0 (by simp only [regCount]; omega) (.inr (by simp only [regCount]; omega))
  | _ => exact exec_keeps h (c := .v) (by simp [footprint]) r

/-- Settles O55: but for `CALL` only `storeBytes` reaches memory, and it stores no byte the checked write refuses. -/
theorem noInstructionButCallWritesARefusedAddress : Obligations.NoInstructionButCallWritesARefusedAddress := by
  intro i s t hcall h
  have kept : ∀ a, ¬ Writable s a → byteAt t a = byteAt s a := by
    intro a ha
    cases i with
    | call nnn => exact absurd rfl (hcall nnn)
    | ldBVx | ldMemVx => cases h; exact byteAt_storeBytes_refused _ s 0 ha
    | _ => exact exec_keeps h (c := .mem) (by simp [footprint]) a
  exact ⟨fun a ha => kept a fun hw => Nat.not_lt.mpr hw.1 ha,
    fun hp a ha => kept a fun hw => Nat.not_lt.mpr (hw.2 hp) ha⟩

/-! The step. -/

theorem exec_config {i : Instr} {s t : State} (h : exec i s = .next t) : t.config = s.config :=
  exec_keeps h (c := .config) (by cases i <;> simp [footprint])

theorem exec_lastOpcode {i : Instr} {s t : State} (h : exec i s = .next t) : t.lastOpcode = s.lastOpcode :=
  exec_keeps h (c := .lastOpcode) (by cases i <;> simp [footprint])

theorem tick_config {s t : State} (h : tick s = .next t) : t.config = s.config := by
  rcases tick_cases h with ⟨x, -, rfl⟩ | ⟨-, -, rfl⟩ | ⟨-, w, -, ⟨e, -, rfl⟩ | ⟨i, -, hi⟩⟩
  · rfl
  · rfl
  · rfl
  · exact (exec_config hi).trans (afterFetch_config s w)

theorem keyDown_config (s : State) (k : Nibble) : (keyDown s k).config = s.config := by
  cases hr : s.run with
  | running => rw [keyDown_running k hr]; rfl
  | awaitingKey x => rw [keyDown_waiting k hr]; rfl

theorem performHostOp_config {op : HostOp} {s t : State} (h : performHostOp op s = .next t) : t.config = s.config := by
  cases op with
  | tick => exact tick_config h
  | loadProgram buf => rcases loadProgram_cases h with ⟨-, rfl⟩ | ⟨-, -, m, rfl⟩ <;> rfl
  | keyDown k => cases h; exact keyDown_config s k
  | _ => cases h; rfl

/-- Settles O4: neither a tick nor an operation of the host changes the parameters. -/
theorem noStepChangesTheParameters : Obligations.NoStepChangesTheParameters := by
  intro s t h
  rcases step_cases h with ⟨-, h⟩ | ⟨op, rest, -, h⟩
  · exact tick_config h
  · have hop := performHostOp_config h
    exact hop

/-! The latch. -/

/-- What a step can do to the latch and the ghost bit: nothing, empty the latch, or raise a fault the core raises. -/
inductive LatchMove (s t : State) : Prop
  | kept (herr : t.err = s.err) (hghost : t.faulted = s.faulted)
  | emptied (herr : t.err = .empty) (hghost : t.faulted = s.faulted)
  | raised (f : FaultCode) (r : Byte) (w : Word) (hf : f ≠ .clearScreenFailure)
      (herr : t.err = ⟨true, faultNumber f, w, r⟩) (hghost : t.faulted = true)

theorem tick_latchMove {s t : State} (h : tick s = .next t) : LatchMove s t := by
  cases tick_latchBlind h with
  | kept he hg _ => exact .kept he hg
  | raised f r w hf he hg _ => exact .raised f r w hf he hg

theorem keyDown_latchMove (s : State) (k : Nibble) : LatchMove s (keyDown s k) := by
  cases hr : s.run with
  | running => rw [keyDown_running k hr]; exact .kept rfl rfl
  | awaitingKey x => rw [keyDown_waiting k hr]; exact .kept rfl rfl

theorem performHostOp_latchMove {op : HostOp} {s t : State} (h : performHostOp op s = .next t) : LatchMove s t := by
  cases op with
  | tick => exact tick_latchMove h
  | reset | clearError => cases h; exact .emptied rfl rfl
  | loadProgram buf =>
    rcases loadProgram_cases h with ⟨-, rfl⟩ | ⟨-, -, m, rfl⟩
    · exact .raised _ _ _ (by decide) rfl rfl
    · exact .kept rfl rfl
  | keyDown k => cases h; exact keyDown_latchMove s k
  | _ => cases h; exact .kept rfl rfl

theorem step_latchMove {s t : State} (h : step s = .next t) : LatchMove s t := by
  rcases step_cases h with ⟨-, h⟩ | ⟨op, rest, -, h⟩
  · exact tick_latchMove h
  · cases performHostOp_latchMove h with
    | kept he hg => exact .kept he hg
    | emptied he hg => exact .emptied he hg
    | raised f r w hf he hg => exact .raised f r w hf he hg

/-- Settles O56: of the three moves of the latch only a raise fills it, and a raise sets the ghost bit. -/
theorem ghostBitIsNeverCleared : Obligations.GhostBitIsNeverCleared := by
  intro s t h
  cases step_latchMove h with
  | kept he hg => exact ⟨fun hs => hg.trans hs, fun hne => absurd he hne⟩
  | emptied he hg => exact ⟨fun hs => hg.trans hs, fun _ hv => by rw [he] at hv; cases hv⟩
  | raised f r w hf he hg => exact ⟨fun _ => hg, fun _ _ => hg⟩

theorem faultNumber_ne_clearScreenFailure {f : FaultCode} (hf : f ≠ .clearScreenFailure) :
    faultNumber f ≠ faultNumber .clearScreenFailure := by
  cases f with
  | clearScreenFailure => exact absurd rfl hf
  | _ => decide

/-- Settles O57: the fault a step raises has a number of its own, and an emptied latch has the number 0. -/
theorem clearScreenFailureIsNeverLatched : Obligations.ClearScreenFailureIsNeverLatched := by
  intro s t h hcode
  cases step_latchMove h with
  | kept he _ => rw [← he]; exact hcode
  | emptied he _ => rw [he] at hcode; exact absurd hcode (by decide)
  | raised f r w hf he _ => rw [he] at hcode; exact absurd hcode (faultNumber_ne_clearScreenFailure hf)

/-- Settles O10: `tick_latchBlind`, whose two cases are the two of the statement. -/
theorem tickDoesNotLookAtTheLatch : Obligations.TickDoesNotLookAtTheLatch := by
  intro s t e h
  cases tick_latchBlind h with
  | kept he _ hop => exact ⟨_, hop e, sameBut_err t e, .inr ⟨he, rfl⟩⟩
  | raised f r w hf he hg hop => exact ⟨t, hop e, .refl _ _, .inl rfl⟩

end Sys2Proof.Machine
end

section
/-! PROOFS. The tick and the step (30_encoding.md sections 2 to 4, 60_exceptions.md sections 3 and 7,
70_reset_and_hazards.md section 5). -/

namespace Sys2Proof.Machine

/-- Settles O5: the fetch reads the two bytes, and a running step with nothing asked for is a tick. -/
theorem stepRunsTheDecodedInstruction : Obligations.StepRunsTheDecodedInstruction := by
  intro s i hp hr hpc hd
  rw [step_of_no_pending hp, tick_exec hr (fetchedWord_eq hpc) hd]
  rfl

/-- Settles O6: what the raise leaves is the fetch's state but for latch and ghost bit. -/
theorem invalidWordRaisesInvalidOpcode : Obligations.InvalidWordRaisesInvalidOpcode := by
  intro s w e hp hr hf hd
  have hfetch : SameBut [.pc, .lastOpcode, .err, .faulted] s (afterFetch s w) := (sameBut_afterFetch s w).mono (by simp)
  exact ⟨_, (step_of_no_pending hp).trans (tick_invalid hr hf hd), latched_raise _ _ _ _, rfl, rfl,
    hfetch.trans ((sameBut_raise _ _ _ _).mono (by simp))⟩

theorem fetchedWord_past_end {s : State} (h : 0xFFF ≤ s.pc.toNat) : fetchedWord s = none :=
  fetchedWord_none (by simp only [memSize]; omega)

/-- Settles O7: past the end nothing is fetched, and the tick is the raise alone. -/
theorem fetchPastMemoryRaises : Obligations.FetchPastMemoryRaises := fun s hp hr hpc =>
  ⟨_, (step_of_no_pending hp).trans (tick_fetch_fault hr (fetchedWord_past_end hpc)), latched_raise _ _ _ _,
    sameBut_raise s _ _ _⟩

/-- Settles O8: `tick_waiting`, the step with nothing asked for being a tick. -/
theorem tickWhileAwaitingKeyChangesNothing : Obligations.TickWhileAwaitingKeyChangesNothing := fun _ _ hr =>
  ⟨tick_waiting hr, fun hp => (step_of_no_pending hp).trans (tick_waiting hr)⟩

/-- Settles O9: `step_of_pending`. -/
theorem stepPerformsTheNextHostOperation : Obligations.StepPerformsTheNextHostOperation := fun _ _ _ => step_of_pending

/-- While running, what a tick returns is read off the state it leaves from an empty latch (log 26). -/
theorem tickOutput_running {s t : State} (hr : s.run = .running) (h : tick (clearError s) = .next t) :
    tickOutput s = if t.err.valid then .fault t.err.code else .word t.lastOpcode := by
  simp only [tickOutput, hr, h, outputOf]

/-- Settles O11: each clause is a branch of the tick from an empty latch. -/
theorem tickReturnsWordOrFault : Obligations.TickReturnsWordOrFault := by
  refine ⟨fun s x hr => ?waiting, fun s hr hpc => ?fetch, fun s w e hr hf hd => ?invalid,
    fun s t w i hr hf hd hi => ?run⟩
  case waiting => simp only [tickOutput, hr]
  case fetch =>
    have hnone : fetchedWord (clearError s) = none := fetchedWord_past_end hpc
    rw [tickOutput_running hr (tick_fetch_fault hr hnone)]
    rfl
  case invalid =>
    have hsome : fetchedWord (clearError s) = some w := hf
    rw [tickOutput_running hr (tick_invalid hr hsome hd)]
    rfl
  case run =>
    have hsome : fetchedWord (clearError s) = some w := hf
    have hword : t.lastOpcode = w := exec_lastOpcode hi
    rw [tickOutput_running hr (tick_exec (s := clearError s) hr hsome hd ▸ hi), hword]

theorem performHostOp_keeps_wait {op : HostOp} {s t : State} {x : Nibble} (hr : s.run = .awaitingKey x)
    (h : performHostOp op s = .next t) (hreset : op ≠ .reset) (hkey : ∀ k, op ≠ .keyDown k) :
    t.run = .awaitingKey x := by
  cases op with
  | reset => exact absurd rfl hreset
  | keyDown k => exact absurd rfl (hkey k)
  | tick =>
    have h : tick s = .next t := h
    rw [tick_waiting hr] at h
    cases h; exact hr
  | loadProgram buf => rcases loadProgram_cases h with ⟨-, rfl⟩ | ⟨-, -, m, rfl⟩ <;> exact hr
  | _ => cases h; exact hr

/-- Settles O48: a tick changes nothing in a wait, and every other operation of the host keeps `run`. -/
theorem onlyKeyDownOrResetEndsAWait : Obligations.OnlyKeyDownOrResetEndsAWait := by
  intro s t x hr h hend
  rcases step_cases h with ⟨-, h⟩ | ⟨op, rest, hp, h⟩
  · rw [tick_waiting hr] at h
    cases h
    exact absurd hr hend
  · refine ⟨rest, ?_⟩
    rw [hp]
    by_contra hno
    rw [not_or, not_exists] at hno
    have hwait : ({ s with pending := rest } : State).run = .awaitingKey x := hr
    exact hend (performHostOp_keeps_wait hwait h (fun e => hno.1 (by rw [e])) fun k e => hno.2 k (by rw [e]))

/-- Settles O58: the jump takes `PC` back to where it was fetched, so the tick leaves a new `last_opcode` only. -/
theorem parkedMachineStaysParked : Obligations.ParkedMachineStaysParked := by
  rintro s ⟨hr, he, hpc, w, hf, hd⟩ hp
  have hpc' : s.pc.toNat ≤ 0xE9F := hpc
  have htarget : (s.pc.setWidth 12).toNat = s.pc.toNat := by rw [BitVec.toNat_setWidth]; omega
  have hback : addrWord (s.pc.setWidth 12) = s.pc := BitVec.eq_of_toNat_eq (by rw [addrWord_toNat, htarget])
  have hstep : step s = .next { s with lastOpcode := w } := by
    rw [step_of_no_pending hp, tick_exec hr hf hd, exec_jp, htarget, if_pos hpc, hback]
    rfl
  exact ⟨_, hstep, ⟨hr, he, hpc, w, hf, hd⟩, hf, sameBut_lastOpcode s w⟩

end Sys2Proof.Machine
end

section
/-! PROOFS. Reset, the program load and the host's reads (60_exceptions.md section 6, 70_reset_and_hazards.md
section 1). -/

namespace Sys2Proof.Machine

/-- The reset image holds glyph `d` at `5 * d` (R37). -/
theorem resetByte_glyph (c : Config) (d : Fin 16) (r : Fin 5) : resetByte c (5 * d.val + r.val) = c.font[d][r] := by
  have hlt : 5 * d.val + r.val < 80 := by omega
  have hdiv : (5 * d.val + r.val) / 5 = d.val := by omega
  have hmod : (5 * d.val + r.val) % 5 = r.val := by omega
  simp only [resetByte, dif_pos hlt, hdiv, hmod, Fin.getElem_fin]

theorem resetByte_above_font (c : Config) {a : Nat} (h : 0x50 ≤ a) : resetByte c a = 0 := dif_neg (Nat.not_lt.mpr h)

theorem resetWith_registers_clear (c : Config) (r : Nibble) : readV (State.resetWith c) r = 0 :=
  Vector.getElem_replicate ..

theorem resetWith_keys_released (c : Config) (k : Nibble) : keyPressed (State.resetWith c) k = false :=
  Vector.getElem_replicate ..

/-- Settles O1: each component is read off `State.resetWith`. -/
theorem resetLeavesTheSpecifiedState : Obligations.ResetLeavesTheSpecifiedState := by
  intro s
  have hpixel : ∀ x y, pixel (hostReset s) x y = false := by simp [pixel, hostReset, State.resetWith]
  have hmem : ∀ a, byteAt (hostReset s) a = resetByte s.config a := fun _ => rfl
  exact ⟨hostReset s, rfl, resetWith_registers_clear s.config, rfl, rfl, rfl, rfl, rfl,
    resetWith_keys_released s.config, rfl, hpixel, rfl, rfl, fun d r => (hmem _).trans (resetByte_glyph s.config d r),
    fun a ha _ => (hmem a).trans (resetByte_above_font s.config ha), rfl, rfl, rfl, rfl, rfl⟩

/-- Settles O50: a legal image ends inside the user region, so `rawWriteBytes_ok` applies to the copy. -/
theorem loadCopiesTheImage : Obligations.LoadCopiesTheImage := by
  intro s buf hs hmax hlen
  simp only [Config.maxProgramSizeLegal, decide_eq_true_eq] at hmax
  obtain ⟨m, hcopy, hwf, hin, hout⟩ := rawWriteBytes_ok buf s userBase hs (by simp only [userEnd, memSize] at *; omega)
  have hload : performHostOp (.loadProgram buf) s = .next { s with mem := m } := by
    simp only [performHostOp, loadProgram, if_neg (Nat.not_lt.mpr hlen), hcopy]
  exact ⟨_, hload, hin, hout, hwf, sameBut_mem s m⟩

theorem loadProgram_too_large {s : State} {buf : List Byte} (h : s.config.maxProgramSize < buf.length) :
    loadProgram s buf = .next (raise s .loadBufferTooLarge 0 0) := if_pos h

/-- Settles O51: the load is the raise alone, and so it is from an empty latch, where the output is read off (log
26). -/
theorem tooLargeAnImageIsRefused : Obligations.TooLargeAnImageIsRefused := by
  intro s buf h
  have hout : loadProgram (clearError s) buf = .next (raise (clearError s) .loadBufferTooLarge 0 0) :=
    loadProgram_too_large h
  refine ⟨?_, _, loadProgram_too_large h, latched_raise _ _ _ _, sameBut_raise s _ _ _⟩
  simp only [hostOutput, hout]
  rfl

/-- Settles O52: each of the three is the read of one field. -/
theorem hostReadsChangeNothing : Obligations.HostReadsChangeNothing := fun _ => ⟨⟨rfl, rfl⟩, ⟨rfl, rfl⟩, rfl, rfl⟩

end Sys2Proof.Machine
end

section
/-! PROOFS. The checked path and the fetch (20_memory.md sections 2 and 4). -/

namespace Sys2Proof.Machine

theorem memRead_eq_none_iff (s : State) (a : Nat) : memRead s a = none ↔ userEnd < a := by
  by_cases h : userEnd < a
  · simp [memRead, h]
  · simp [memRead_eq (Nat.le_of_not_lt h), h]

theorem memWrite_eq_none_iff (s : State) (a : Nat) (b : Byte) : memWrite s a b = none ↔ ¬ Writable s a := by
  refine ⟨fun h hw => ?_, memWrite_none b⟩
  rw [memWrite_eq b hw] at h
  cases h

theorem not_writable_iff (s : State) (a : Nat) :
    ¬ Writable s a ↔ userEnd < a ∨ (s.config.protectSystem = true ∧ a < userBase) := by
  unfold Writable
  rw [not_and_or, Nat.not_le, Classical.not_imp, Nat.not_le]

/-- Settles O60: a write through the checked path is `setByte` at an address it accepts, or nothing. -/
theorem checkedPathReadsWhatItWrote : Obligations.CheckedPathReadsWhatItWrote := by
  intro s a b hs
  refine ⟨memRead_eq_none_iff s a, (memWrite_eq_none_iff s a b).trans (not_writable_iff s a), fun t ht => ?_⟩
  obtain ⟨⟨ha, -⟩, rfl⟩ := memWrite_cases ht
  have hlt : a < memSize := Nat.lt_of_le_of_lt ha (by decide)
  refine ⟨?_, memSameOutside_setByte s a b, setByte_wf hs hlt b, sameBut_mem s _⟩
  rw [memRead_eq ha, byteAt_setByte_same hs]

theorem highByte_wordOfBytes (hi lo : Byte) : highByte (wordOfBytes hi lo) = hi := by
  apply BitVec.eq_of_toNat_eq
  rw [highByte_toNat, wordOfBytes_toNat]
  omega

theorem lowByte_wordOfBytes (hi lo : Byte) : lowByte (wordOfBytes hi lo) = lo := by
  apply BitVec.eq_of_toNat_eq
  rw [lowByte_toNat, wordOfBytes_toNat]
  omega

/-- Settles O59: the fetch reads memory byte by byte, high byte first. -/
theorem storedBytesAreFetched : Obligations.StoredBytesAreFetched := by
  intro s t a b hs ht hpc
  obtain ⟨-, rfl⟩ := memWrite_cases ht
  refine ⟨_, fetchedWord_eq hpc, fun h => ?_, fun h => ?_⟩
  · rw [highByte_wordOfBytes, h, byteAt_setByte_same hs]
  · rw [lowByte_wordOfBytes, h, byteAt_setByte_same hs]

end Sys2Proof.Machine
end

section
/-! PROOFS. The opcode map (30_encoding.md section 5). -/

namespace Sys2Proof

/-- The word is in the opcode map of 30_encoding.md section 5: leading digit, low digit and low byte as the map has
them. -/
def InMap (w : Word) : Prop :=
  (w.toNat = 0x00E0 ∨ w.toNat = 0x00EE) ∨ w.toNat / 4096 ∈ [1, 2, 3, 4, 6, 7, 0xA, 0xB, 0xC, 0xD] ∨
    (w.toNat / 4096 ∈ [5, 9] ∧ w.toNat % 16 = 0) ∨ (w.toNat / 4096 = 8 ∧ (w.toNat % 16 ≤ 7 ∨ w.toNat % 16 = 0xE)) ∨
    (w.toNat / 4096 = 0xE ∧ w.toNat % 256 ∈ [0x9E, 0xA1]) ∨
    (w.toNat / 4096 = 0xF ∧ w.toNat % 256 ∈ [0x07, 0x0A, 0x15, 0x18, 0x1E, 0x29, 0x33, 0x55, 0x65])

/-! A word a family rejects: it is named in the rejection, and its low digits are none of the family's. -/

theorem decode0_error {w : Word} {e : DecodeReject} (h : decode0 w = .error e) :
    e = .invalidOpcode w ∧ w.toNat % 4096 ≠ 0x0E0 ∧ w.toNat % 4096 ≠ 0x0EE := by
  unfold decode0 at h
  rw [toNat_fieldNNN] at h
  split at h
  case h_3 h1 h2 => exact ⟨(Except.error.inj h).symm, h1, h2⟩
  all_goals nomatch h

theorem decodeN0_error {w : Word} {i : Instr} {e : DecodeReject} (h : decodeN0 w i = .error e) :
    e = .invalidOpcode w ∧ w.toNat % 16 ≠ 0 := by
  unfold decodeN0 at h
  rw [toNat_fieldN] at h
  split at h
  case h_2 h1 => exact ⟨(Except.error.inj h).symm, h1⟩
  case h_1 => nomatch h

theorem decode8_error {w : Word} {e : DecodeReject} (h : decode8 w = .error e) :
    e = .invalidOpcode w ∧ ¬ (w.toNat % 16 ≤ 7 ∨ w.toNat % 16 = 0xE) := by
  unfold decode8 at h
  rw [toNat_fieldN] at h
  split at h
  case h_10 =>
    simp only [imp_false] at *
    exact ⟨(Except.error.inj h).symm, by omega⟩
  all_goals nomatch h

theorem decodeE_error {w : Word} {e : DecodeReject} (h : decodeE w = .error e) :
    e = .invalidOpcode w ∧ w.toNat % 256 ∉ [0x9E, 0xA1] := by
  unfold decodeE at h
  rw [toNat_fieldNN] at h
  split at h
  case h_3 =>
    simp only [imp_false] at *
    exact ⟨(Except.error.inj h).symm, by simp only [List.mem_cons, List.not_mem_nil, or_false]; omega⟩
  all_goals nomatch h

theorem decodeF_error {w : Word} {e : DecodeReject} (h : decodeF w = .error e) :
    e = .invalidOpcode w ∧ w.toNat % 256 ∉ [0x07, 0x0A, 0x15, 0x18, 0x1E, 0x29, 0x33, 0x55, 0x65] := by
  unfold decodeF at h
  rw [toNat_fieldNN] at h
  split at h
  case h_10 =>
    simp only [imp_false] at *
    exact ⟨(Except.error.inj h).symm, by simp only [List.mem_cons, List.not_mem_nil, or_false]; omega⟩
  all_goals nomatch h

/-- The case `h_k` is the leading digit `k - 1`; `h_17` is no digit at all. -/
theorem decode_error {w : Word} {e : DecodeReject} (h : decode w = .error e) : e = .invalidOpcode w ∧ ¬ InMap w := by
  have hlt := w.isLt
  unfold decode at h
  rw [toNat_fieldF] at h
  split at h
  case h_1 hf =>
    obtain ⟨he, hlow⟩ := decode0_error h
    exact ⟨he, by simp only [InMap, List.mem_cons, List.not_mem_nil, or_false]; omega⟩
  case h_6 hf | h_10 hf =>
    obtain ⟨he, hlow⟩ := decodeN0_error h
    exact ⟨he, by simp only [InMap, List.mem_cons, List.not_mem_nil, or_false]; omega⟩
  case h_9 hf =>
    obtain ⟨he, hlow⟩ := decode8_error h
    exact ⟨he, by simp only [InMap, List.mem_cons, List.not_mem_nil, or_false]; omega⟩
  case h_15 hf =>
    obtain ⟨he, hlow⟩ := decodeE_error h
    simp only [List.mem_cons, List.not_mem_nil, or_false] at hlow
    exact ⟨he, by simp only [InMap, List.mem_cons, List.not_mem_nil, or_false]; omega⟩
  case h_16 hf =>
    obtain ⟨he, hlow⟩ := decodeF_error h
    simp only [List.mem_cons, List.not_mem_nil, or_false] at hlow
    exact ⟨he, by simp only [InMap, List.mem_cons, List.not_mem_nil, or_false]; omega⟩
  case h_17 =>
    simp only [imp_false] at *
    omega
  all_goals nomatch h

/-! The leading digit and the low digits of an assembled word. -/

theorem encodeA_digit (f : Nibble) (nnn : Addr) : (encodeA f nnn).toNat / 4096 = f.toNat := by
  rw [toNat_encodeA]; omega

theorem encodeR_digit (f x : Nibble) (nn : Byte) : (encodeR f x nn).toNat / 4096 = f.toNat := by
  rw [toNat_encodeR]; omega

theorem encodeR_lowByte (f x : Nibble) (nn : Byte) : (encodeR f x nn).toNat % 256 = nn.toNat := by
  rw [toNat_encodeR]; omega

theorem encodeRR_digit (f x y n : Nibble) : (encodeRR f x y n).toNat / 4096 = f.toNat := by
  rw [toNat_encodeRR]; omega

theorem encodeRR_lowDigit (f x y n : Nibble) : (encodeRR f x y n).toNat % 16 = n.toNat := by
  rw [toNat_encodeRR]; omega

/-- The word of every instruction is in the map. -/
theorem inMap_encode (i : Instr) : InMap (encode i) := by
  cases i with
  | cls => exact .inl (.inl rfl)
  | ret => exact .inl (.inr rfl)
  | _ => simp [InMap, encode, encodeA_digit, encodeR_digit, encodeR_lowByte, encodeRR_digit, encodeRR_lowDigit]

/-- Settles O14: a word is rejected just where it is outside the map, and the rejection names it. -/
theorem wordsOutsideTheMapAreRejected : Obligations.WordsOutsideTheMapAreRejected := by
  intro w
  show (InMap w → _) ∧ (¬ InMap w → _)
  cases hd : decode w with
  | ok i => exact ⟨fun _ => ⟨i, rfl⟩, fun hno => absurd (encode_of_decode hd ▸ inMap_encode i) hno⟩
  | error e =>
    obtain ⟨rfl, hno⟩ := decode_error hd
    exact ⟨fun hin => absurd hin hno, fun _ => rfl⟩

/-- Settles O15: the decoder evaluates on ten words. -/
theorem specWordsDecode : Obligations.SpecWordsDecode := by
  unfold Obligations.SpecWordsDecode
  decide

end Sys2Proof
end

section
/-! PROOFS. Flow control and skips (40_flow.md) and the key skips (44_timers_input.md sections 1 and 2). -/

namespace Sys2Proof.Machine

/-! The shapes of an answer these instructions share. -/

/-- An answer that skips where `c` holds. -/
theorem answer_skip {r : Result} {s : State} {c : Prop} [Decidable c] (h : r = .next (if c then skipNext s else s)) :
    ∃ t, r = .next t ∧ SameBut [.pc] s t ∧ t.pc.toNat = if c then (s.pc.toNat + 2) % 65536 else s.pc.toNat := by
  refine ⟨_, h, .ite (sameBut_skipNext s) (.refl _ _), ?_⟩
  split
  · exact BitVec.toNat_add s.pc 2
  · rfl

/-- An answer that skips unless `c` holds. -/
theorem answer_skip_unless {r : Result} {s : State} {c : Prop} [Decidable c]
    (h : r = .next (if c then s else skipNext s)) :
    ∃ t, r = .next t ∧ SameBut [.pc] s t ∧ t.pc.toNat = if c then s.pc.toNat else (s.pc.toNat + 2) % 65536 := by
  rw [← ite_not] at h ⊢
  exact answer_skip h

/-- An answer that refuses a target or an address. -/
theorem answer_refused {r : Result} {s : State} (h : r = .next (refuseAccess s)) :
    ∃ t, r = .next t ∧ Latched t 3 s.lastOpcode 0 ∧ SameBut [.err, .faulted] s t :=
  ⟨_, h, latched_refuseAccess s, sameBut_refuseAccess s⟩

/-- An answer that takes a target that passes the check. -/
theorem answer_target_ok {r : Result} {s t : State} {n : Nat}
    (h : r = .next (if n ≤ userEnd then t else refuseAccess s)) (hn : n ≤ userEnd) : r = .next t := by
  rw [h, if_pos hn]

/-- An answer that refuses a target above the bound. -/
theorem answer_target_refused {r : Result} {s t : State} {n : Nat}
    (h : r = .next (if n ≤ userEnd then t else refuseAccess s)) (hn : userEnd < n) :
    ∃ t, r = .next t ∧ Latched t 3 s.lastOpcode 0 ∧ SameBut [.err, .faulted] s t :=
  answer_refused (by rw [h, if_neg (Nat.not_le.mpr hn)])

/-- An answer that refuses a key number. -/
theorem answer_refused_key {r : Result} {s : State} (h : r = .next (refuseKey s)) :
    ∃ t, r = .next t ∧ Latched t 7 s.lastOpcode 2 ∧ SameBut [.err, .faulted] s t :=
  ⟨_, h, latched_raise _ _ _ _, sameBut_refuseKey s⟩

/-! Skips by a comparison (R115 to R118). -/

theorem skipIf_beq (s : State) (a b : Byte) :
    skipIf (a == b) s = .next (if a.toNat = b.toNat then skipNext s else s) := by
  simp only [skipIf, beq_iff_eq, BitVec.toNat_inj]

theorem skipIf_bne (s : State) (a b : Byte) :
    skipIf (a != b) s = .next (if a.toNat = b.toNat then s else skipNext s) := by
  simp only [skipIf, bne_iff_ne, ne_eq, ite_not, BitVec.toNat_inj]

theorem decodeN0_of_ne {w : Word} {i : Instr} (h : fieldN w ≠ 0) : decodeN0 w i = .error (.invalidOpcode w) := by
  unfold decodeN0
  split
  · next hn => exact absurd (eq_ofNat_of_toNat hn) h
  · rfl

/-- Families 5 and 9 reject a low digit other than 0 (R87, D11). -/
theorem decode_lowDigit_ne {f : Nibble} (hf : f = 0x5#4 ∨ f = 0x9#4) (x y : Nibble) {n : Nibble} (hn : n ≠ 0) :
    decode (encodeRR f x y n) = .error (.invalidOpcode (encodeRR f x y n)) := by
  have hlow : fieldN (encodeRR f x y n) ≠ 0 := by rw [fieldN_encodeRR]; exact hn
  rcases hf with rfl | rfl
  · simp [decode, decodeN0_of_ne hlow]
  · simp [decode, decodeN0_of_ne hlow]

/-- Settles O16: each word is the one it encodes to, and each answer is a skip by a comparison. -/
theorem skipsMoveByOneInstruction : Obligations.SkipsMoveByOneInstruction := fun s x y _ =>
  ⟨⟨fun _ => decode_eq_ok_iff, answer_skip (skipIf_beq s _ _)⟩,
    ⟨fun _ => decode_eq_ok_iff, answer_skip_unless (skipIf_bne s _ _)⟩,
    ⟨fun _ => decode_eq_ok_iff, fun _ => decode_lowDigit_ne (.inl rfl) x y, answer_skip (skipIf_beq s _ _)⟩,
    ⟨fun _ => decode_eq_ok_iff, fun _ => decode_lowDigit_ne (.inr rfl) x y, answer_skip_unless (skipIf_bne s _ _)⟩⟩

/-- Settles O41: the register names the key `k`, whose state is the condition. -/
theorem keySkipsFollowTheKey : Obligations.KeySkipsFollowTheKey := fun _ _ _ h =>
  ⟨answer_skip (exec_skp_key (keyIndex_some h)), answer_skip_unless (exec_sknp_key (keyIndex_some h))⟩

/-- Settles O42: a register above 15 names no key. -/
theorem keyNumberAboveFifteenRaises : Obligations.KeyNumberAboveFifteenRaises := fun _ _ h =>
  ⟨answer_refused_key (exec_skp_noKey (keyIndex_none h)), answer_refused_key (exec_sknp_noKey (keyIndex_none h))⟩

/-! Jumps and refused targets. -/

/-- Settles O17: a target up to `0xE9F` passes the check, and 16 bits hold it. -/
theorem jumpsLoadTheirTarget : Obligations.JumpsLoadTheirTarget := by
  intro s nnn
  refine ⟨fun h => ⟨_, answer_target_ok (exec_jp s nnn) h, addrWord_toNat nnn, sameBut_writePC s _⟩,
    fun h => ⟨_, answer_target_ok (exec_jpV0 s nnn) h, ?_, sameBut_writePC s _⟩⟩
  rw [writePC_pc, BitVec.toNat_ofNat, indexedTarget]
  omega

/-- Settles O18: the three checked loads by their equations, `CALL` by its branch after the overflow check. -/
theorem targetsAboveTheBoundAreRefused : Obligations.TargetsAboveTheBoundAreRefused := fun s nnn =>
  ⟨fun h => ⟨answer_target_refused (exec_jp s nnn) h, answer_target_refused (exec_ldINnn s nnn) h,
      fun hsp => answer_refused (exec_call_refused hsp h)⟩,
    fun h => answer_target_refused (exec_jpV0 s nnn) h⟩

/-! The stack. -/

/-- Settles O19: what `CALL` leaves is `pushed` with the target in `PC`. -/
theorem callPushesTheReturnAddress : Obligations.CallPushesTheReturnAddress := by
  intro s nnn hs hm hsp ht
  have hframe : SameBut [.mem, .sp, .pc] s (pushed s s.pc) := (sameBut_pushed s s.pc).mono (by simp)
  refine ⟨_, exec_call_push hsp ht hm, ?_, ?_, memSameOutside_pushed s s.pc, pushed_wf hs s.pc hm, ?_,
    addrWord_toNat nnn, hframe.trans ((sameBut_writePC _ _).mono (by simp))⟩
  · rw [writePC_byteAt, byteAt_pushed_high hs, highByte_toNat]
  · rw [writePC_byteAt, byteAt_pushed_low hs _ hm, lowByte_toNat]
  · rw [writePC_sp, pushed_sp]
    bv_omega

/-- Settles O20: the overflow check comes first. -/
theorem callOnAFullStackOverflows : Obligations.CallOnAFullStackOverflows := fun s nnn h =>
  ⟨_, exec_call_full nnn h, latched_raise _ _ _ _, sameBut_raise s _ _ _⟩

/-- Settles O21: `exec_ret_empty` and `exec_ret_pop`, with `SP - 2` as a number. -/
theorem returnPopsOrUnderflows : Obligations.ReturnPopsOrUnderflows := by
  intro s
  refine ⟨fun _ => decode_eq_ok_iff, fun h => ?_, fun hne hlo hhi => ?_⟩
  · exact ⟨_, exec_ret_empty h, latched_raise _ _ _ _, sameBut_raise s _ _ _⟩
  · have hsp : (s.sp - 2).toNat = s.sp.toNat - 2 := by bv_omega
    refine ⟨_, exec_ret_pop hne (by simp only [memSize]; omega), hsp, ?_, sameBut_popped s⟩
    rw [popped_pc, wordOfBytes_toNat, hsp, show s.sp.toNat - 2 + 1 = s.sp.toNat - 1 by omega]

/-- Settles O22: below 2 the pop wraps above memory, and elsewhere the slot itself lies above it. -/
theorem stackOutsideMemoryStops : Obligations.StackOutsideMemoryStops := by
  intro s
  refine ⟨fun h => exec_ret_outside ?_ ?_, fun nnn hm hne ht => exec_call_outside hne ht ?_⟩
  · simp only [stackBase]; omega
  · simp only [memSize]; bv_omega
  · simp only [memSize]; omega

/-- Settles O23: the slot below the `SP` that `CALL` left holds the two bytes of its `PC`. -/
theorem returnUndoesCall : Obligations.ReturnUndoesCall := by
  intro s nnn hs hc hlegal hfull ht
  obtain ⟨hlo, hhi⟩ := hlegal.slot_left hfull
  have hlim := stackLimit_le hc
  have hm : s.sp.toNat + 1 < memSize := by simp only [memSize]; omega
  refine ⟨_, exec_call_push hfull ht hm, fun u husp hhigh hlow => ?_⟩
  have husp : u.sp = s.sp + 2 := husp
  have htop : u.sp - 2 = s.sp := by rw [husp]; bv_omega
  have hne : u.sp.toNat ≠ stackBase := by simp only [stackBase] at *; bv_omega
  refine ⟨_, exec_ret_pop hne (by rw [htop]; exact hm), ?_, htop⟩
  rw [writePC_byteAt, byteAt_pushed_high hs] at hhigh
  rw [writePC_byteAt, byteAt_pushed_low hs _ hm] at hlow
  rw [popped_pc, htop, hhigh, hlow, wordOfBytes_high_low]

end Sys2Proof.Machine
end

section
/-! PROOFS. The ALU and the random byte (41_alu.md). -/

namespace Sys2Proof.Machine

/-- Settles O25: each writes `VX` with the bitwise operation of the two registers. -/
theorem logicWorksBitByBit : Obligations.LogicWorksBitByBit := by
  intro s x y
  refine ⟨⟨_, rfl, regsSameBut_writeV s x _, sameBut_writeV s x _, fun k _ => ?_⟩,
    ⟨_, rfl, regsSameBut_writeV s x _, sameBut_writeV s x _, fun k _ => ?_⟩,
    ⟨_, rfl, regsSameBut_writeV s x _, sameBut_writeV s x _, fun k _ => ?_⟩⟩
  · rw [readV_writeV_same, BitVec.getLsbD_or]
  · rw [readV_writeV_same, BitVec.getLsbD_and]
  · rw [readV_writeV_same, BitVec.getLsbD_xor]

/-! The flags as numbers (R143). -/

theorem carryFlag_toNat (a b : Byte) : (carryFlag a b).toNat = (a.toNat + b.toNat) / 256 := by
  rw [carryFlag, flagByte_toNat]
  simp only [decide_eq_true_eq]
  split <;> omega

theorem noBorrowFlag_toNat (a b : Byte) : (noBorrowFlag a b).toNat = if b.toNat ≤ a.toNat then 1 else 0 := by
  rw [noBorrowFlag, flagByte_toNat]
  simp only [decide_eq_true_eq]

theorem lsbFlag_toNat (a : Byte) : (lsbFlag a).toNat = a.toNat % 2 := by
  rw [lsbFlag, BitVec.toNat_and]
  exact Nat.and_one_is_mod _

theorem msbFlag_toNat (a : Byte) : (msbFlag a).toNat = a.toNat / 128 := by
  have hbit : msbFlag a = (a >>> 7) &&& 1 := BitVec.ushiftRight_and_distrib a 0x80 7
  rw [hbit, BitVec.toNat_and, BitVec.toNat_ushiftRight, Nat.shiftRight_eq_div_pow]
  refine (Nat.and_one_is_mod _).trans ?_
  omega

/-- An answer with a flag: `VF` holds the flag, `VX` the result unless it is `VF`, and nothing else has changed. -/
theorem answer_result_flag {i : Instr} {s : State} {x : Nibble} {a flag : Byte}
    (h : exec i s = .next (writeResultThenFlag s x a flag)) {F : Nat} (hF : flag.toNat = F) {P : Byte → Prop}
    (hP : P a) : ∃ t, exec i s = .next t ∧ (readV t 0xF).toNat = F ∧ (x ≠ 0xF → P (readV t x)) ∧
      RegsSameBut [x, 0xF] s t ∧ SameBut [.v] s t := by
  refine ⟨_, h, ?_, fun hx => ?_, regsSameBut_writeResultThenFlag s x a flag, sameBut_writeResultThenFlag s x a flag⟩
  · rw [← hF]
    exact congrArg BitVec.toNat (readV_flagReg_writeResultThenFlag s x a flag)
  · rw [readV_result_writeResultThenFlag s a flag hx]
    exact hP

/-- The carry and the result together are the sum. -/
theorem carry_and_sum (a b : Byte) : 256 * ((a.toNat + b.toNat) / 256) + (a + b).toNat = a.toNat + b.toNat := by
  rw [BitVec.toNat_add]; omega

/-- Settles O26: the carry is the sum's quotient by 256, the result its remainder. -/
theorem addSplitsTheSum : Obligations.AddSplitsTheSum := by
  intro s x y
  obtain ⟨t, h, hflag, hsum, hframe⟩ := answer_result_flag (i := .addVxVy x y) rfl (carryFlag_toNat _ _)
    (P := fun b => _ + b.toNat = _) (carry_and_sum (readV s x) (readV s y))
  exact ⟨t, h, hflag, fun hx => by rw [hflag]; exact hsum hx, hframe⟩

/-- Subtraction modulo 256. -/
theorem sub_toInt_mod (a b : Byte) : ((a - b).toNat : Int) = (a.toNat - b.toNat : Int) % 256 := by
  rw [BitVec.toNat_sub]; omega

/-- Settles O27: the two differ in which operand is taken from which. -/
theorem subtractsSetNoBorrow : Obligations.SubtractsSetNoBorrow := fun s x y =>
  ⟨answer_result_flag (i := .sub x y) rfl (noBorrowFlag_toNat _ _) (P := fun b => (b.toNat : Int) = _)
      (sub_toInt_mod (readV s x) (readV s y)),
    answer_result_flag (i := .subn x y) rfl (noBorrowFlag_toNat _ _) (P := fun b => (b.toNat : Int) = _)
      (sub_toInt_mod (readV s y) (readV s x))⟩

theorem ushiftRight_one_toNat (a : Byte) : (a >>> 1).toNat = a.toNat / 2 := by
  rw [BitVec.toNat_ushiftRight, Nat.shiftRight_eq_div_pow]

theorem shiftLeft_one_toNat (a : Byte) : (a <<< 1).toNat = 2 * a.toNat % 256 := by
  rw [BitVec.toNat_shiftLeft, Nat.shiftLeft_eq]; omega

/-- Settles O28: halving, doubling, and the bit at the end that is shifted out. -/
theorem shiftsMoveOneBitOut : Obligations.ShiftsMoveOneBitOut := fun s x y =>
  ⟨answer_result_flag (i := .shr x y) rfl (lsbFlag_toNat _) (P := fun b => b.toNat = _)
      (ushiftRight_one_toNat (readV s x)),
    answer_result_flag (i := .shl x y) rfl (msbFlag_toNat _) (P := fun b => b.toNat = _)
      (shiftLeft_one_toNat (readV s x))⟩

/-! The random byte (R248). -/

/-- A byte the outside has ready is the one taken. -/
theorem random_ready {s : State} {r : Byte} {rs : List Byte} (h : s.randoms = r :: rs) :
    nextRandom s = r ∧ takeRandom s = { s with randoms := rs } := by
  simp only [nextRandom, takeRandom, h, and_self]

/-- Where none is ready it is the next free value. -/
theorem random_free {s : State} (h : s.randoms = []) :
    nextRandom s = Config.randomByte s.draws ∧ takeRandom s = { s with draws := s.draws + 1 } := by
  simp only [nextRandom, takeRandom, h, and_self]

/-- Settles O29: `takeRandom` leaves the registers, and `VX` is then written with the masked byte. -/
theorem randomByteIsMaskedAndTaken : Obligations.RandomByteIsMaskedAndTaken := by
  intro s x nn
  have hregs : ∀ q, readV (takeRandom s) q = readV s q := sameBut_takeRandom s .v (by decide)
  have htake : SameBut [.v, .random] s (takeRandom s) := (sameBut_takeRandom s).mono (by simp)
  refine ⟨writeV (takeRandom s) x (nextRandom s &&& nn), rfl, fun q hq => ?_,
    htake.trans ((sameBut_writeV _ _ _).mono (by simp)), fun k _ hk => ?_, fun r rs hrs => ?_, fun hnil => ?_⟩
  · rw [regsSameBut_writeV _ x _ q hq, hregs q]
  · rw [readV_writeV_same, BitVec.getLsbD_and, hk, Bool.and_false]
  · obtain ⟨hnext, htaken⟩ := random_ready hrs
    rw [readV_writeV_same, hnext, htaken]
    exact ⟨rfl, rfl, rfl⟩
  · obtain ⟨hnext, htaken⟩ := random_free hnil
    rw [readV_writeV_same, hnext, htaken]
    exact ⟨rfl, hnil, rfl⟩

end Sys2Proof.Machine
end

section
/-! PROOFS. The index register and the memory transfers (42_index_memory.md). -/

namespace Sys2Proof.Machine

/-! What the block instructions answer (R163 to R165). -/

theorem exec_ldBVx (s : State) (x : Nibble) :
    exec (.ldBVx x) s = .next (storeBytes s 0 (bcdDigits (readV s x))) := rfl

theorem exec_ldMemVx (s : State) (x : Nibble) : exec (.ldMemVx x) s = .next (storeBytes s 0 (regBlock s x)) := rfl

theorem exec_ldVxMem (s : State) (x : Nibble) : exec (.ldVxMem x) s = .next (loadRegs s 0 (x.toNat + 1)) := rfl

/-! The index register. -/

theorem glyphAddr_toNat (b : Byte) : (glyphAddr b).toNat = 5 * b.toNat := by
  rw [glyphAddr, BitVec.toNat_ofNat]; omega

theorem zextWord_toNat (b : Byte) : (zextWord b).toNat = b.toNat := by
  rw [zextWord, BitVec.toNat_setWidth]; omega

/-- Settles O30: `writeI` keeps 12 bits, which hold a target up to `0xE9F` and a glyph's address whole. -/
theorem indexIsSetTo12Bits : Obligations.IndexIsSetTo12Bits := by
  intro s x nnn
  refine ⟨fun h => ⟨_, answer_target_ok (exec_ldINnn s nnn) h, ?_, sameBut_writeI s _⟩,
    ⟨_, rfl, ?_, sameBut_writeI s _⟩, ⟨_, rfl, ?_, sameBut_writeI s _⟩⟩
  · rw [writeI_toNat, addrWord_toNat]; omega
  · rw [writeI_toNat, BitVec.toNat_add, zextWord_toNat]; omega
  · rw [writeI_toNat, glyphAddr_toNat]; omega

/-! Block stores. -/

/-- What a store of `bs` at `I` leaves where every byte is accepted. -/
theorem answer_store {r : Result} {s : State} {bs : List Byte} (h : r = .next (storeBytes s 0 bs))
    (hs : Memory.wf s.config s.mem) (hw : ∀ k, k < bs.length → Writable s (effAddr s k)) :
    ∃ t, r = .next t ∧ (∀ k (hk : k < bs.length), byteAt t (effAddr s k) = bs[k]) ∧
      MemSameOutside (effAddr s 0) bs.length s t ∧ Memory.wf t.config t.mem ∧ SameBut [.mem] s t := by
  obtain ⟨m, hstore, hwf, hin, hout⟩ := storeBytes_ok bs s 0 hs (by simpa using hw)
  have hin' : ∀ k (hk : k < bs.length), Memory.read s.config m (effAddr s k) = bs[k] := by simpa using hin
  exact ⟨{ s with mem := m }, by rw [h, hstore], hin', hout, hwf, sameBut_mem s m⟩

/-- What a store of `bs` at `I` leaves where byte `j` is the first refused: the `j` bytes before it, and a raise. -/
theorem answer_store_refused {r : Result} {s : State} {bs : List Byte} (h : r = .next (storeBytes s 0 bs)) {j : Nat}
    (hs : Memory.wf s.config s.mem) (hw : ∀ k, k < j → Writable s (effAddr s k)) (hno : ¬ Writable s (effAddr s j))
    (hj : j < bs.length) :
    ∃ t, r = .next t ∧ (∀ k (hk : k < j), byteAt t (effAddr s k) = bs[k]) ∧ MemSameOutside (effAddr s 0) j s t ∧
      Latched t 3 s.lastOpcode 0 ∧ SameBut [.mem, .err, .faulted] s t := by
  have hlen : (bs.take j).length = j := by rw [List.length_take]; omega
  obtain ⟨t, ht, hin, hout, -, hframe⟩ :=
    answer_store (r := .next (storeBytes s 0 (bs.take j))) rfl hs (by rw [hlen]; exact hw)
  injection ht with ht
  have hstop : storeBytes s 0 bs = refuseAccess t := by
    rw [← ht]
    exact storeBytes_stop bs s 0 j hj (by simpa using hw) (by simpa using hno)
  have hlast : t.lastOpcode = s.lastOpcode := hframe .lastOpcode (by decide)
  rw [hlen] at hout
  refine ⟨refuseAccess t, by rw [h, hstop], fun k hk => (hin k (by omega)).trans List.getElem_take, hout, ?_,
    (hframe.mono (by simp)).trans ((sameBut_refuseAccess t).mono (by simp))⟩
  rw [← hlast]
  exact latched_refuseAccess t

/-- Settles O31: `answer_store` of the three digits, whose value is the register. -/
theorem decimalDigitsAreStored : Obligations.DecimalDigitsAreStored := by
  intro s x hs hw
  obtain ⟨t, ht, hin, hout, hwf, hframe⟩ := answer_store (exec_ldBVx s x) hs hw
  have h0 : (byteAt t (effAddr s 0)).toNat = (readV s x).toNat / 100 := by
    rw [hin 0 (by simp [bcdDigits])]; simp [bcdDigits]; omega
  have h1 : (byteAt t (effAddr s 1)).toNat = (readV s x).toNat / 10 % 10 := by
    rw [hin 1 (by simp [bcdDigits])]; simp [bcdDigits]; omega
  have h2 : (byteAt t (effAddr s 2)).toNat = (readV s x).toNat % 10 := by
    rw [hin 2 (by simp [bcdDigits])]; simp [bcdDigits]; omega
  exact ⟨t, ht, by omega, by omega, by omega, by omega, hout, hwf, hframe⟩

/-- Settles O32: `answer_store` of the register block, whose element `r` is `Vr`. -/
theorem registersAreStored : Obligations.RegistersAreStored := by
  intro s x hs hw
  have hlen := regBlock_length s x
  obtain ⟨t, ht, hin, hout, hwf, hframe⟩ :=
    answer_store (exec_ldMemVx s x) hs (fun k hk => hw k (by omega))
  rw [hlen] at hout
  refine ⟨t, ht, fun r hr => ?_, hout, hwf, hframe⟩
  rw [hin r.toNat (by omega), regBlock_getElem]

/-- Settles O33: `answer_store_refused` of the register block and of the three digits. -/
theorem refusedStoreKeepsEarlierBytes : Obligations.RefusedStoreKeepsEarlierBytes := by
  intro s x j hs hw hno
  refine ⟨fun hj => ?_, fun hj => ?_⟩
  · have hlen := regBlock_length s x
    obtain ⟨t, ht, hin, hframe⟩ := answer_store_refused (exec_ldMemVx s x) hs hw hno (by omega)
    refine ⟨t, ht, fun r hr => ?_, hframe⟩
    rw [hin r.toNat hr, regBlock_getElem]
  · obtain ⟨t, ht, hin, hframe⟩ := answer_store_refused (exec_ldBVx s x) hs hw hno (by simpa [bcdDigits] using hj)
    refine ⟨t, ht, fun h => ?_, fun h => ?_, hframe⟩
    · rw [hin 0 h]; simp [bcdDigits]; omega
    · rw [hin 1 h]; simp [bcdDigits]; omega

/-! Block loads. -/

/-- What a load of `V0..V(n-1)` from `I` leaves where every byte can be read. -/
theorem loadRegs_from_zero {s : State} {n : Nat} (hn : n ≤ 16) (hr : ∀ k, k < n → effAddr s k ≤ userEnd) :
    (∀ r : Nibble, readV (loadRegs s 0 n) r = if r.toNat < n then byteAt s (effAddr s r.toNat) else readV s r) ∧
      SameBut [.v] s (loadRegs s 0 n) := by
  obtain ⟨v, hv, hread⟩ := loadRegs_ok n s 0 (by omega) (by simpa using hr)
  exact ⟨by simpa using hread, by rw [hv]; exact sameBut_v s v⟩

theorem effAddr_mono (s : State) {j k : Nat} (h : j ≤ k) : effAddr s j ≤ effAddr s k := Nat.add_le_add_left h _

/-- Settles O34: the last address of the block can be read, so all can. -/
theorem registersAreLoaded : Obligations.RegistersAreLoaded := by
  intro s x h
  obtain ⟨hread, hframe⟩ := loadRegs_from_zero (s := s) (n := x.toNat + 1) (by omega)
    fun k hk => (effAddr_mono s (Nat.le_of_lt_succ hk)).trans h
  exact ⟨_, exec_ldVxMem s x, by simpa only [Nat.lt_succ_iff] using hread, hframe⟩

/-- Settles O35: the load stops at register `j` with a raise, after `j` registers loaded as they would be alone. -/
theorem refusedLoadKeepsEarlierRegisters : Obligations.RefusedLoadKeepsEarlierRegisters := by
  intro s x j hj hr hno
  obtain ⟨hread, hframe⟩ := loadRegs_from_zero (s := s) (n := j) (by omega) hr
  have hstop : loadRegs s 0 (x.toNat + 1) = refuseAccess (loadRegs s 0 j) :=
    loadRegs_stop _ s 0 j (by omega) (fun k hk => by rw [Nat.zero_add]; exact hr k hk) (by rw [Nat.zero_add]; exact hno)
  have hlast : (loadRegs s 0 j).lastOpcode = s.lastOpcode := hframe .lastOpcode (by decide)
  refine ⟨_, (exec_ldVxMem s x).trans (congrArg _ hstop), hread, ?_,
    (hframe.mono (by simp)).trans ((sameBut_refuseAccess _).mono (by simp))⟩
  rw [← hlast]
  exact latched_refuseAccess _

/-- Settles O36: the addresses a store accepts can be read, and by O32 they hold the registers. -/
theorem loadRestoresWhatStoreSaved : Obligations.LoadRestoresWhatStoreSaved := by
  intro s x hs hw
  obtain ⟨t, ht, hstored, -⟩ := registersAreStored s x hs hw
  refine ⟨t, ht, fun u hi hkept => ?_⟩
  have haddr : ∀ k, effAddr u k = effAddr s k := fun k => by rw [effAddr, effAddr, hi]
  obtain ⟨w, hw', hread, -⟩ := registersAreLoaded u x (by rw [haddr]; exact (hw x.toNat (Nat.le_refl _)).1)
  refine ⟨w, hw', fun r hr => ?_⟩
  rw [hread r, if_pos hr, haddr, hkept r.toNat hr, hstored r hr]

end Sys2Proof.Machine
end

section
/-! PROOFS. The display (43_display.md). -/

namespace Sys2Proof.Machine

/-- Settles O37: the framebuffer it leaves is clear row by row. -/
theorem clearScreenClearsEveryPixel : Obligations.ClearScreenClearsEveryPixel :=
  ⟨fun _ => decode_eq_ok_iff, fun s => ⟨_, rfl, fun x y => by simp [pixel], sameBut_fb s _⟩⟩

theorem exec_drw (s : State) (x y n : Nibble) : exec (.drw x y n) s =
    .next (drawRows (writeV s flagReg 0) (readV s x).toNat (readV s y).toNat 0 n.toNat) := rfl

/-- What `DRW` says of the pixels and the flag register: the rows `0 ..< n` of the sprite drawn with `VF` cleared
before. -/
def SpriteDrawn (s t : State) (vx vy n : Nat) : Prop :=
  (∀ px py, pixel t px py = (pixel s px py ^^ spriteBit s vx vy n px py)) ∧
  ((∃ px py, pixel s px py = true ∧ spriteBit s vx vy n px py = true) → readV t 0xF = 1) ∧
  ((∀ px py, pixel s px py = true → spriteBit s vx vy n px py = false) → readV t 0xF = 0) ∧
  RegsSameBut [0xF] s t

/-- Where no row that drawing comes to is refused, `n` rows are drawn and nothing else changes (R181). -/
theorem drawRows_spriteDrawn {s : State} {vx vy n : Nat} (hn : n ≤ 32)
    (hr : ∀ r, r < n → rowReached s vy r → effAddr s r ≤ userEnd) :
    SpriteDrawn s (drawRows (writeV s flagReg 0) vx vy 0 n) vx vy n ∧
      SameBut [.v, .fb] s (drawRows (writeV s flagReg 0) vx vy 0 n) := by
  have hd : Drawn (writeV s flagReg 0) (drawRows (writeV s flagReg 0) vx vy 0 n)
      (rowsBit (writeV s flagReg 0) vx vy 0 n) :=
    drawRows_drawn n _ vx vy 0 (by omega) (fun q hq h => by rw [Nat.zero_add] at h ⊢; exact hr q hq h) (.inr (.inl rfl))
  have hbits : rowsBit (writeV s flagReg 0) vx vy 0 n = spriteBit s vx vy n :=
    funext fun px => funext fun py => (spriteBit_eq_rowsBit s vx vy n px py).symm
  rw [hbits] at hd
  refine ⟨⟨hd.pixels, hd.hit, fun h => (hd.clear h).trans (readV_writeV_same s _ _), fun q hq => ?_⟩, ?_⟩
  · have hq : q ≠ flagReg := by simpa [flagReg] using hq
    rw [hd.others q hq, readV_writeV_other s _ hq]
  · obtain ⟨v, fb, hshape⟩ := hd.shape
    rw [hshape]
    exact sameBut_v_fb s v fb

/-- Settles O38: `drawRows_spriteDrawn`, a sprite having at most 15 rows. -/
theorem spriteIsDrawnPixelByPixel : Obligations.SpriteIsDrawnPixelByPixel := by
  intro s x y n hr
  obtain ⟨⟨hpix, hhit, hclear, hregs⟩, hframe⟩ := drawRows_spriteDrawn (vx := (readV s x).toNat) (by omega) hr
  exact ⟨_, exec_drw s x y n, hpix, hhit, hclear, hregs, hframe⟩

/-- Settles O39: drawing stops at row `q` with a raise, after `q` rows drawn as they would be alone. -/
theorem refusedSpriteRowKeepsEarlierRows : Obligations.RefusedSpriteRowKeepsEarlierRows := by
  intro s x y n q hq hreach hr hno
  obtain ⟨⟨hpix, hhit, hclear, hregs⟩, hframe⟩ :=
    drawRows_spriteDrawn (vx := (readV s x).toNat) (vy := (readV s y).toNat) (n := q) (by omega) fun r hrq _ => hr r hrq
  have hstop := drawRows_stop n.toNat (writeV s flagReg 0) (readV s x).toNat (readV s y).toNat 0 q hq
    (fun r hrq => by rw [Nat.zero_add]; exact hr r hrq) (by rw [Nat.zero_add]; exact hreach)
    (by rw [Nat.zero_add]; exact hno)
  refine ⟨_, (exec_drw s x y n).trans (congrArg _ hstop), hpix, hhit, hclear, hregs, ?_,
    (hframe.mono (by simp)).trans ((sameBut_refuseAccess _).mono (by simp))⟩
  have hlast : (drawRows (writeV s flagReg 0) (readV s x).toNat (readV s y).toNat 0 q).lastOpcode = s.lastOpcode :=
    hframe .lastOpcode (by decide)
  rw [← hlast]
  exact latched_refuseAccess _

/-- The picture of a sprite depends on `I`, the bytes of memory and `WRAP_Y` only, and drawing keeps them. -/
theorem spriteBit_congr {s t : State} (h : SameBut [.v, .fb] s t) (vx vy n : Nat) :
    spriteBit t vx vy n = spriteBit s vx vy n := by
  have hi : t.i = s.i := h .i (by decide)
  have hc : t.config = s.config := h .config (by decide)
  have hm : ∀ a, byteAt t a = byteAt s a := h .mem (by decide)
  funext px py
  simp only [spriteBit, hi, hc, hm]

/-- Settles O40: the second draw draws the same picture on the first draw's pixels, so exclusive-or takes it back, and
its set bits meet set pixels just where they met clear ones before. -/
theorem drawingTwiceRestoresTheScreen : Obligations.DrawingTwiceRestoresTheScreen := by
  intro s x y n hx hy hr
  obtain ⟨t, ht, hpix, -, -, hregs, hframe⟩ := spriteIsDrawnPixelByPixel s x y n hr
  have hvx : readV t x = readV s x := hregs x (by simpa using hx)
  have hvy : readV t y = readV s y := hregs y (by simpa using hy)
  have hi : t.i = s.i := hframe .i (by decide)
  have hc : t.config = s.config := hframe .config (by decide)
  obtain ⟨u, hu, hpix', hhit, hclear, -⟩ := spriteIsDrawnPixelByPixel t x y n (by
    simpa only [rowReached, effAddr, hvy, hi, hc] using hr)
  rw [hvx, hvy, spriteBit_congr hframe] at hpix' hhit hclear
  have hmet : ∀ px py, pixel t px py = true ∧ spriteBit s (readV s x).toNat (readV s y).toNat n.toNat px py = true ↔
      pixel s px py = false ∧ spriteBit s (readV s x).toNat (readV s y).toNat n.toNat px py = true := by
    intro px py
    rw [hpix]
    cases pixel s px py <;> simp
  refine ⟨t, u, ht, hu, fun px py => ?_, fun hone => ?_, fun ⟨px, py, hp⟩ => hhit ⟨px, py, (hmet px py).mpr hp⟩⟩
  · rw [hpix', hpix, Bool.xor_assoc, Bool.xor_self, Bool.xor_false]
  · by_contra hno
    have hzero : readV u 0xF = 0 := hclear fun px py hp => by
      by_contra hb
      exact hno ⟨px, py, (hmet px py).mp ⟨hp, by simpa using hb⟩⟩
    rw [hzero] at hone
    exact absurd hone (by decide)

end Sys2Proof.Machine
end

section
/-! PROOFS. Timers and the key wait (44_timers_input.md sections 3 and 4, 60_exceptions.md section 5). -/

namespace Sys2Proof.Machine

/-- Settles O43: one register or one timer is written with the byte read from the other. -/
theorem timerTransfersMoveOneByte : Obligations.TimerTransfersMoveOneByte := fun s x =>
  ⟨⟨_, rfl, writeV_value_and_frame s x s.dt⟩, ⟨_, rfl, rfl, sameBut_dt s _⟩, ⟨_, rfl, rfl, sameBut_st s _⟩⟩

/-- Settles O44: `run` is the one field it writes. -/
theorem keyWaitIsEntered : Obligations.KeyWaitIsEntered := fun s _ => ⟨_, rfl, rfl, sameBut_run s _⟩

/-- Settles O45: `keyDown_running` and `keyDown_waiting`. -/
theorem keyDownPressesAndEndsTheWait : Obligations.KeyDownPressesAndEndsTheWait := by
  intro s k
  refine ⟨fun hr => ?running, fun x hr => ?waiting⟩
  case running =>
    exact ⟨_, congrArg Host.Outcome.next (keyDown_running k hr), keyPressed_setKey_same s k true,
      fun _ hj => keyPressed_setKey_other s true hj, sameBut_setKey s k true⟩
  case waiting =>
    have hkeys : SameBut [.keys, .v, .run] s (setKey s k true) := (sameBut_setKey s k true).mono (by simp)
    have hreg : SameBut [.keys, .v, .run] s (writeV (setKey s k true) x (k.setWidth 8)) :=
      hkeys.trans ((sameBut_writeV _ _ _).mono (by simp))
    have hvx : (readV (writeV (setKey s k true) x (k.setWidth 8)) x).toNat = k.toNat := by
      rw [readV_writeV_same, BitVec.toNat_setWidth]; omega
    exact ⟨{ writeV (setKey s k true) x (k.setWidth 8) with run := .running },
      congrArg Host.Outcome.next (keyDown_waiting k hr), keyPressed_setKey_same s k true,
      fun _ hj => keyPressed_setKey_other s true hj, hvx, regsSameBut_writeV (setKey s k true) x _, rfl,
      hreg.trans ((sameBut_run _ _).mono (by simp))⟩

end Sys2Proof.Machine
end
